-- ==== Sys2Proof/Word.lean ====
section
/-! DEFINITION. Words, bytes, and the two fixed groupings of words SM4E's registers come in
(00_scope.md R9, R11). -/

namespace Sys2Proof

/-- A word is 32 bits, unsigned (R11). -/
abbrev Word := BitVec 32

/-- A byte is 8 bits, unsigned (R11). -/
abbrev Byte := BitVec 8

/-- Four words: `KEY[0..3]`, `DATA[0..3]`, `x[0..3]`, `k[0..3]` (10_state.md R27, R28, R34, R35), and one
round-key group (R32). -/
structure Quad where
  w0 : Word
  w1 : Word
  w2 : Word
  w3 : Word
  deriving DecidableEq, Repr

/-- The round-key file `RK[0..31]`, "32 32-bit words (stored as 8 groups of 4)" (10_state.md R32). -/
structure RoundKeys where
  g0 : Quad
  g1 : Quad
  g2 : Quad
  g3 : Quad
  g4 : Quad
  g5 : Quad
  g6 : Quad
  g7 : Quad
  deriving DecidableEq, Repr

end Sys2Proof
end

