-- ==== Sys2Proof/Config.lean ====
section
/-! DEFINITION. What an implementation of SM4E fixes (00_scope.md R10), and the free values: constants with no
body, of which nothing can be proved. -/

namespace Sys2Proof.Config

/-- `SM4_BASE` divided by 256: open (R10, 93 U7; log 9). -/
opaque baseBlock : Nat

/-- `SM4_BASE`, the bus address of window offset 0x000: open, a multiple of 256 (R10, 20_memory.md R50). -/
def smBase : Nat := 256 * baseBlock

/-- `LAT_KS` less 1: open (R10, 93 U6; log 12). -/
opaque latKsLessOne : Nat

/-- `LAT_BLK` less 1: open (R10, 93 U6; log 12). -/
opaque latBlkLessOne : Nat

/-- `LAT_T` less 1: open (R10, 93 U6; log 12). -/
opaque latTLessOne : Nat

/-- `LAT_KS`, cycles from acceptance of SM4.KS to its completion, at least 1 (R10). No rule depends on it (R241). -/
def latKs : Nat := latKsLessOne + 1

/-- `LAT_BLK`, cycles from acceptance of SM4.ENC or SM4.DEC to completion, at least 1 (R10). No rule depends on it. -/
def latBlk : Nat := latBlkLessOne + 1

/-- `LAT_T`, cycles from acceptance of SM4.T or SM4.TP to completion, at least 1 (R10). No rule depends on it. -/
def latT : Nat := latTLessOne + 1

/-- The `any` of R14 and R17: the value of draw number n (10_state.md R31, 93 U3; log 4). -/
opaque freeWord : Nat → Word

/-- What a host variable holds before the host program sets it: the spec gives no value (30_encoding.md R80; log 10). -/
opaque unsetVar : Nat → Word

end Sys2Proof.Config
end

