-- ==== Sys2Proof/Machine/HostSyntax.lean ====
section
/-! DEFINITION. The host's program form (30_encoding.md R80) and the turns of the model's agents (00_scope.md R8). -/

namespace Sys2Proof.Machine

/-- The value a host write sends: `imm32`, or the value of host variable h (R80). -/
inductive HostVal where
  | imm (v : Word)
  | var (h : Nat)
  deriving DecidableEq, Repr

/-- One host instruction (R80). `off` is a raw window offset (`W @off`, `R @off`); a register's name stands for its
offset by `Reg.off`. `width` is the access width in bytes: every form R80 writes has 4, the others are there because the
bus refuses them (20_memory.md R53). Host variables are numbered, and labels are places in the program (log 3). -/
inductive HostInstr where
  /-- `W <reg>, v`: a bus write. -/
  | write (off : BitVec 8) (width : Nat) (v : HostVal)
  /-- `R <reg> -> t`: a bus read into host variable t. -/
  | read (off : BitVec 8) (width : Nat) (t : Nat)
  /-- `BNZ t, mask, label`: if `(t & mask) != 0` go to label. -/
  | bnz (t : Nat) (mask : Word) (label : Nat)
  /-- `SET h, imm32`. -/
  | set (h : Nat) (v : Word)
  /-- `DEC h`: h <- h - 1 modulo 2^32. -/
  | dec (h : Nat)
  deriving DecidableEq, Repr

/-- The host agent (R8): its program, its place in it, and the variables it has set so far. None of it is state of
SM4E (R80, 10_state.md R20). -/
structure HostAgent where
  prog : List HostInstr
  pc : Nat
  vars : List (Nat × Word)
  deriving DecidableEq, Repr

/-- What moves in a step: one of R8's two agents, or the reset input (70_reset_and_hazards.md R230). -/
inductive Turn where
  | host
  | engine
  | reset
  deriving DecidableEq, Repr

end Sys2Proof.Machine
end

