-- ==== Sys2Proof/Machine/State.lean ====
section
/-! DEFINITION. The state of SM4E (10_state.md R20), of the host agent and of the schedule, and the reasons a step
stops. -/

namespace Sys2Proof.Machine

/-- The codes of `STATUS.ERR` (60_exceptions.md R202). Codes 5–15 are never written, so they have no name. -/
inductive Err where
  /-- 0 NONE. -/
  | noError
  /-- 1 ILLEGAL_CMD. -/
  | illegalCmd
  /-- 2 KEY_LEN. -/
  | keyLen
  /-- 3 BLOCK_LEN. -/
  | blockLen
  /-- 4 NO_KEY. -/
  | noKey
  deriving DecidableEq, Repr

/-- The accepted command in flight: its operation and the snapshot of its operand registers at acceptance
(10_state.md R36). -/
inductive Pending where
  | ks (key : Quad)
  | enc (data : Quad)
  | dec (data : Quad)
  | t (arg : Word)
  | tp (arg : Word)
  deriving DecidableEq, Repr

/-- Everything the model holds. The first block is SM4E's state, all of it (10_state.md R20); `STATUS.BUSY` is
`pend` being full (R36, log 1). The second block is the model's own: the host agent and the inputs. -/
structure State where
  /-- `STATUS.KEY_VALID` (R24). -/
  keyValid : Bool
  /-- `STATUS.OVERRUN` (R25). -/
  overrun : Bool
  /-- `STATUS.ERR` (R26). -/
  err : Err
  /-- `KEY[0..3]` (R27). -/
  key : Quad
  /-- `DATA[0..3]` (R28). -/
  data : Quad
  /-- `ARG` (R29). -/
  arg : Word
  /-- `RES` (R30). -/
  res : Word
  /-- `RK[0..31]` (R32, R33). -/
  rk : RoundKeys
  /-- `x[0..3]`, the block transform's working words (R34). -/
  x : Quad
  /-- `k[0..3]`, the key schedule's working words (R35). -/
  k : Quad
  /-- `pend`, the accepted command in flight (R36). -/
  pend : Option Pending
  /-- The host agent (00_scope.md R8; log 3). -/
  host : HostAgent
  /-- The turns taken next, before the fair default schedule (log 2). -/
  turns : List Turn
  /-- How many `any` draws were made (log 4). -/
  draws : Nat
  deriving DecidableEq, Repr

/-- Why the machine stops with a fault. -/
inductive Fault where
  /-- `raise BusError(addr)` (20_memory.md R55): raised by a host access of a width other than 4, at a misaligned
  offset or at a reserved offset. No state of SM4E changes, and the host agent is faulted. Safe (log 8). -/
  | busError (addr : Nat)
  deriving DecidableEq, Repr

/-- Why the machine gives an instruction no meaning. -/
inductive Refusal where
  /-- Raised by an arm of `exec` that has no meaning yet; no arm does. Safe. -/
  | notModelled (mnemonic : String)
  deriving DecidableEq, Repr

/-- Four zero words. -/
def zeroQuad : Quad := ⟨0#32, 0#32, 0#32, 0#32⟩

/-- The machine right after reset (10_state.md R42, 70_reset_and_hazards.md R230, R231). `rk`, `x` and `k` are
unspecified there and hold 0 here (DESIGN CHOICE, logs 5 and 6); the host has no program (log 3). -/
def State.reset : State where
  keyValid := false
  overrun := false
  err := .noError
  key := zeroQuad
  data := zeroQuad
  arg := 0#32
  res := 0#32
  rk := ⟨zeroQuad, zeroQuad, zeroQuad, zeroQuad, zeroQuad, zeroQuad, zeroQuad, zeroQuad⟩
  x := zeroQuad
  k := zeroQuad
  pend := none
  host := ⟨[], 0, []⟩
  turns := []
  draws := 0

end Sys2Proof.Machine
end

