-- ==== Sys2Proof/Machine/Operands.lean ====
section
/-! DEFINITION. Words of a quad and of the round-key file by index, byte order, and the operands a command reads:
no command carries a register number or an immediate (30_encoding.md R74). -/

namespace Sys2Proof.Machine

/-- Word `j` of four. -/
def quadGet (q : Quad) (j : Fin 4) : Word :=
  match j with
  | 0 => q.w0
  | 1 => q.w1
  | 2 => q.w2
  | 3 => q.w3

/-- Four words with word `j` replaced. -/
def quadSet (q : Quad) (j : Fin 4) (v : Word) : Quad :=
  match j with
  | 0 => { q with w0 := v }
  | 1 => { q with w1 := v }
  | 2 => { q with w2 := v }
  | 3 => { q with w3 := v }

/-- The words in reverse order (the output permutation of 42_block_transform.md R153). -/
def quadReverse (q : Quad) : Quad := ⟨q.w3, q.w2, q.w1, q.w0⟩

/-- Round-key group `g` (10_state.md R32). -/
def rkGroup (rk : RoundKeys) (g : Fin 8) : Quad :=
  match g with
  | 0 => rk.g0
  | 1 => rk.g1
  | 2 => rk.g2
  | 3 => rk.g3
  | 4 => rk.g4
  | 5 => rk.g5
  | 6 => rk.g6
  | 7 => rk.g7

/-- `RK[n]`: group `n / 4`, word `n % 4` (10_state.md R32). -/
def rkWord (rk : RoundKeys) (n : Fin 32) : Word :=
  quadGet (rkGroup rk (Fin.ofNat 8 (n.val / 4))) (Fin.ofNat 4 (n.val % 4))

/-- Four bytes as a word, the first in bits 31:24 (00_scope.md R13). -/
def wordOfBytes (b0 b1 b2 b3 : Byte) : Word := b0 ++ b1 ++ b2 ++ b3

/-- `bytes_be(w)`: the four bytes of a word, bits 31:24 first (00_scope.md R13). -/
def bytesBe (w : Word) : List Byte :=
  [w.extractLsb' 24 8, w.extractLsb' 16 8, w.extractLsb' 8 8, w.extractLsb' 0 8]

/-- `be32(B, n)`: bytes 4n to 4n+3 of a byte sequence as a word, big-endian (00_scope.md R13). -/
def be32 (b : Vector Byte 16) (n : Fin 4) : Word :=
  wordOfBytes b[4 * n.val] b[4 * n.val + 1] b[4 * n.val + 2] b[4 * n.val + 3]

/-- A 16-byte key or block as its four words (10_state.md R27, R28; 20_memory.md R58). -/
def quadOfBytes (b : Vector Byte 16) : Quad := ⟨be32 b 0, be32 b 1, be32 b 2, be32 b 3⟩

/-- The bytes of four words, first word first (20_memory.md R58). -/
def bytesOfQuad (q : Quad) : List Byte := bytesBe q.w0 ++ bytesBe q.w1 ++ bytesBe q.w2 ++ bytesBe q.w3

end Sys2Proof.Machine
end

