-- ==== Sys2Proof/Machine/Flags.lean ====
section
/-! DEFINITION. The STATUS register (10_state.md R22 to R26) and the checks of a command
(60_exceptions.md R202). No cipher operation produces a flag (R39). -/

namespace Sys2Proof.Machine

/-- `STATUS.BUSY`: a command is in flight (10_state.md R23, R36; log 1). -/
def State.busy (s : State) : Bool := s.pend.isSome

/-- The 4-bit code of `STATUS.ERR` (60_exceptions.md R202). -/
def errCode (e : Err) : BitVec 4 :=
  match e with
  | .noError => 0#4
  | .illegalCmd => 1#4
  | .keyLen => 2#4
  | .blockLen => 3#4
  | .noKey => 4#4

/-- The `STATUS` word: BUSY bit 0, KEY_VALID bit 1, OVERRUN bit 2, ERR bits 11:8, the other bits read as 0
(10_state.md R22). -/
def statusWord (s : State) : Word :=
  0#20 ++ errCode s.err ++ 0#5 ++ BitVec.ofBool s.overrun ++ BitVec.ofBool s.keyValid
    ++ BitVec.ofBool s.busy

/-- A host write to `STATUS`: bit 2 = 1 clears OVERRUN, the other bits are ignored (10_state.md R25,
20_memory.md R51). -/
def writeStatus (v : Word) (s : State) : State :=
  { s with overrun := if v.getLsbD 2 then false else s.overrun }

/-- Check 2 of R202: the declared length must be 16, else `code`. -/
def lengthCheck (code : Err) (len : Nat) : Option Err := if len = 16 then none else some code

/-- Check 3 of R202: the block transform needs KEY_VALID = 1, else NO_KEY. -/
def keyCheck (s : State) : Option Err := if s.keyValid then none else some .noKey

/-- The checks of SM4.ENC and SM4.DEC, the first that fails reported: BLOCK_LEN before NO_KEY (R202, R205). -/
def blockChecks (len : Nat) (s : State) : Option Err :=
  match lengthCheck .blockLen len with
  | some e => some e
  | none => keyCheck s

end Sys2Proof.Machine
end

