-- ==== Sys2Proof/Machine/Ops.lean ====
section
/-! DEFINITION. The operations the meanings share: the two error responses SM4E has in place of exceptions
(60_exceptions.md R201, 20_memory.md R55; it takes no traps and returns from none, R206, R207), acceptance
(70_reset_and_hazards.md R232), and the end of a command (R233). -/

namespace Sys2Proof.Machine

/-- `raise CmdError(code)`: ERR takes the code, nothing else changes (R201). -/
def raiseCmdError (code : Err) (s : State) : State := { s with err := code }

/-- The bus address of a window offset (20_memory.md R50). -/
def busAddr (off : BitVec 8) : Nat := Config.smBase + off.toNat

/-- `raise BusError(addr)`: the host agent is faulted, and no state of SM4E changes (R55; log 8). -/
def raiseBusError (off : BitVec 8) : Host.Outcome State Fault Refusal := .fault (.busError (busAddr off))

/-- A write that reaches SM4E while BUSY = 1 is dropped and sets OVERRUN (20_memory.md R57). -/
def dropWrite (s : State) : State := { s with overrun := true }

/-- Acceptance: the operation and its operands into `pend`, ERR <- 0, BUSY <- 1 (R232). -/
def accept (p : Pending) (s : State) : State := { s with err := .noError, pend := some p }

/-- Issue of a decoded command (R200): while BUSY = 1 the write is dropped with no check run (R57, R205);
else the first failing check rejects it (R201), or it is accepted. -/
def issue (check : Option Err) (accepted s : State) : Host.Outcome State Fault Refusal :=
  if s.busy then .next (dropWrite s)
  else
    match check with
    | some code => .next (raiseCmdError code s)
    | none => .next accepted

/-- The end of every completion: BUSY <- 0, pend <- empty (R233). -/
def retire (s : State) : State := { s with pend := none }

end Sys2Proof.Machine
end

