-- ==== Sys2Proof/Machine/RoundFunction.lean ====
section
/-! DEFINITION. The round-function engine: rotl, tau, L, L′, T, T′ (40_round_function.md R104 to R111), and its
commands SM4.T and SM4.TP (R112, R113). -/

namespace Sys2Proof.Machine

/-- `rotl(x, i)` (R104). -/
def rotl (x : Word) (i : Nat) : Word :=
  if i % 32 = 0 then x else (x <<< (i % 32)) ||| (x >>> (32 - i % 32))

/-- `tau(a)`: every byte through the S-box, order kept (R105). -/
def tau (a : Word) : Word :=
  wordOfBytes (sbox (a.extractLsb' 24 8)) (sbox (a.extractLsb' 16 8)) (sbox (a.extractLsb' 8 8))
    (sbox (a.extractLsb' 0 8))

/-- `L(b)` (R106). -/
def linL (b : Word) : Word := b ^^^ rotl b 2 ^^^ rotl b 10 ^^^ rotl b 18 ^^^ rotl b 24

/-- `Lp(b)`, the source's L′ (R107). -/
def linLp (b : Word) : Word := b ^^^ rotl b 13 ^^^ rotl b 23

/-- `T(x) = L(tau(x))` (R108). -/
def roundT (x : Word) : Word := linL (tau x)

/-- `Tp(x) = Lp(tau(x))`, the source's T′ (R109). -/
def roundTp (x : Word) : Word := linLp (tau x)

/-- SM4.T at the `CMD` write: no check but decoding; `ARG` is read into `pend` (R112). -/
def execT (s : State) : Host.Outcome State Fault Refusal := issue none (accept (.t s.arg) s) s

/-- SM4.TP at the `CMD` write (R113). -/
def execTp (s : State) : Host.Outcome State Fault Refusal := issue none (accept (.tp s.arg) s) s

/-- Completion of SM4.T: RES <- T(pend.a) (R112). -/
def completeT (a : Word) (s : State) : State := retire { s with res := roundT a }

/-- Completion of SM4.TP: RES <- Tp(pend.a) (R113). -/
def completeTp (a : Word) (s : State) : State := retire { s with res := roundTp a }

end Sys2Proof.Machine
end

