-- ==== Sys2Proof/Machine/BlockTransform.lean ====
section
/-! DEFINITION. The block-cipher transform and its commands SM4.ENC and SM4.DEC (42_block_transform.md R150 to
R156). -/

namespace Sys2Proof.Machine

/-- The direction of the block transform, DIR (30_encoding.md R72). -/
inductive Dir where
  | encrypt
  | decrypt
  deriving DecidableEq, Repr

/-- `step(j, kw)`: `x[j] <- x[j] ^ T(x[j+1] ^ x[j+2] ^ x[j+3] ^ kw)`, indices modulo 4 (R151). -/
def blockStep (j : Fin 4) (kw : Word) (x : Quad) : Quad :=
  quadSet x j (quadGet x j ^^^ roundT (quadGet x (j + 1) ^^^ quadGet x (j + 2) ^^^ quadGet x (j + 3) ^^^ kw))

/-- The key word of group r, step j: `RK[4r + j]` to encrypt, `RK[4(7-r) + (3-j)]` to decrypt (R152, 90 C1). -/
def keyWord (dir : Dir) (rk : RoundKeys) (r : Fin 8) (j : Fin 4) : Word :=
  match dir with
  | .encrypt => quadGet (rkGroup rk r) j
  | .decrypt => quadGet (rkGroup rk (7 - r)) (3 - j)

/-- Group r: the state index runs 0, 1, 2, 3 in both directions (R152). -/
def blockGroup (dir : Dir) (rk : RoundKeys) (x : Quad) (r : Fin 8) : Quad :=
  blockStep 3 (keyWord dir rk r 3) (blockStep 2 (keyWord dir rk r 2)
    (blockStep 1 (keyWord dir rk r 1) (blockStep 0 (keyWord dir rk r 0) x)))

/-- The working words `x[0..3]` after all 32 steps (R152). -/
def blockSteps (dir : Dir) (rk : RoundKeys) (x : Quad) : Quad :=
  [0, 1, 2, 3, 4, 5, 6, 7].foldl (blockGroup dir rk) x

/-- The output block: the final words in reverse order, in both directions (R153). -/
def transform (dir : Dir) (rk : RoundKeys) (block : Quad) : Quad := quadReverse (blockSteps dir rk block)

/-- SM4.ENC at the `CMD` write: BLOCK_LEN unless LEN = 16, then NO_KEY unless KEY_VALID = 1; acceptance reads
`DATA[0..3]` into `pend` (R155). -/
def execEnc (len : Nat) (s : State) : Host.Outcome State Fault Refusal :=
  issue (blockChecks len s) (accept (.enc s.data) s) s

/-- SM4.DEC at the `CMD` write: as SM4.ENC (R156). -/
def execDec (len : Nat) (s : State) : Host.Outcome State Fault Refusal :=
  issue (blockChecks len s) (accept (.dec s.data) s) s

/-- Completion of SM4.ENC: the block encrypted under `RK` into `DATA`, in one step (R155); the working words end as
the rules leave them (R152; log 6). -/
def completeEnc (block : Quad) (s : State) : State :=
  retire { s with x := blockSteps .encrypt s.rk block, data := transform .encrypt s.rk block }

/-- Completion of SM4.DEC (R156). -/
def completeDec (block : Quad) (s : State) : State :=
  retire { s with x := blockSteps .decrypt s.rk block, data := transform .decrypt s.rk block }

end Sys2Proof.Machine
end

