-- ==== Sys2Proof/Machine/KeySchedule.lean ====
section
/-! DEFINITION. The key-schedule derivation unit and SM4.KS (41_key_schedule.md R130 to R133). -/

namespace Sys2Proof.Machine

/-- Seeding: key word i XOR FK[i] (R130). -/
def ksSeed (key : Quad) : Quad := ⟨key.w0 ^^^ fk.w0, key.w1 ^^^ fk.w1, key.w2 ^^^ fk.w2, key.w3 ^^^ fk.w3⟩

/-- One line of R131: `k[j] <- k[j] ^ Tp(k[j+1] ^ k[j+2] ^ k[j+3] ^ c)`, indices modulo 4. -/
def ksStep (j : Fin 4) (c : Word) (k : Quad) : Quad :=
  quadSet k j (quadGet k j ^^^ roundTp (quadGet k (j + 1) ^^^ quadGet k (j + 2) ^^^ quadGet k (j + 3) ^^^ c))

/-- Group i: its four lines in the order written, each reading what the lines before it wrote (R131). -/
def ksGroup (i : Nat) (k : Quad) : Quad :=
  ksStep 3 (ck (4 * i + 3)) (ksStep 2 (ck (4 * i + 2)) (ksStep 1 (ck (4 * i + 1)) (ksStep 0 (ck (4 * i)) k)))

/-- The working words `k[0..3]` after the first n groups. -/
def ksState (key : Quad) (n : Nat) : Quad :=
  match n with
  | 0 => ksSeed key
  | i + 1 => ksGroup i (ksState key i)

/-- `RKnew[0..31]`: the working words after group i become round-key group i (R132). -/
def keySchedule (key : Quad) : RoundKeys :=
  ⟨ksState key 1, ksState key 2, ksState key 3, ksState key 4, ksState key 5, ksState key 6, ksState key 7,
    ksState key 8⟩

/-- SM4.KS at the `CMD` write: KEY_LEN unless LEN = 16; acceptance reads `KEY[0..3]` into `pend` and clears
KEY_VALID (R133). -/
def execKs (len : Nat) (s : State) : Host.Outcome State Fault Refusal :=
  issue (lengthCheck .keyLen len) (accept (.ks s.key) { s with keyValid := false }) s

/-- Completion of SM4.KS: all 32 words in one step, KEY_VALID <- 1 (R133); the working words end as the rules leave
them (R131; log 6). -/
def completeKs (key : Quad) (s : State) : State :=
  retire { s with rk := keySchedule key, k := ksState key 8, keyValid := true }

end Sys2Proof.Machine
end

