-- ==== Sys2Proof/Machine/Engine.lean ====
section
/-! DEFINITION. The engine's only step, completion, and the reset input (70_reset_and_hazards.md R230, R233). -/

namespace Sys2Proof.Machine

/-- Completion of the command in flight, in one indivisible step (R233). -/
def complete (p : Pending) (s : State) : State :=
  match p with
  | .ks key => completeKs key s
  | .enc block => completeEnc block s
  | .dec block => completeDec block s
  | .t a => completeT a s
  | .tp a => completeTp a s

/-- The engine's turn: completion, enabled exactly when BUSY = 1 (R233); a turn while it is not enabled changes
nothing (log 2). -/
def engineTurn (s : State) : State :=
  match s.pend with
  | some p => complete p s
  | none => s

/-- The reset input: every piece of SM4E's state takes its reset value and a command in flight is abandoned; reset has
no other effect, so the host agent, the schedule and the draws stay (R230; log 7). -/
def resetTurn (s : State) : State := { State.reset with host := s.host, turns := s.turns, draws := s.draws }

end Sys2Proof.Machine
end

