-- ==== Sys2Proof/Syntax.lean ====
section
/-! DEFINITION. The commands of SM4E, one constructor per row of spec/opcode_table.json (30_encoding.md R71, R76). -/

namespace Sys2Proof

/-- A command. `len` is the byte length the host declares, LEN (R73). -/
inductive Instr where
  /-- SM4.KS: key-schedule derivation (41_key_schedule.md R133). -/
  | ks (len : Nat)
  /-- SM4.ENC: block transform, DIR = 0 (42_block_transform.md R155). -/
  | enc (len : Nat)
  /-- SM4.DEC: block transform, DIR = 1 (42_block_transform.md R156). -/
  | dec (len : Nat)
  /-- SM4.T: composite operator T (40_round_function.md R112). -/
  | t
  /-- SM4.TP: composite operator T′ (40_round_function.md R113). -/
  | tp
  deriving DecidableEq, Repr

end Sys2Proof
end

