-- ==== Sys2Proof/WellFormed.lean ====
section
/-! DEFINITION. Which commands have an encoding: LEN is one byte, 0..255 (30_encoding.md R70, R73, R79). -/

namespace Sys2Proof

/-- LEN fits its 8-bit field (R73). Any value 0..255 is well formed; whether it is 16 is checked at issue (R202). -/
def Instr.wf : Instr → Bool
  | .ks len => len < 256
  | .enc len => len < 256
  | .dec len => len < 256
  | .t => true
  | .tp => true

/-- The command has an encoding. -/
abbrev WellFormed (i : Instr) : Prop := i.wf = true

end Sys2Proof
end

