-- ==== Sys2Proof/Decode.lean ====
section
/-! DEFINITION. Decoding and encoding of command words (30_encoding.md R70 to R79). -/

namespace Sys2Proof

/-- Which bullet of R77 makes a word illegal. The spec gives every one of them the one code ILLEGAL_CMD;
the names are the model's (log 13). -/
inductive Illegal where
  /-- RZ1 or RZ0 is not 0. -/
  | reservedBits
  /-- OP is 0 or 5..15. -/
  | operation
  /-- DIR = 1 with OP = 1, 3 or 4. -/
  | direction
  /-- LEN is not 0 with OP = 3 or 4. -/
  | length
  deriving DecidableEq, Repr

/-- OP, bits 3:0 (R70). -/
def fieldOp (c : Word) : BitVec 4 := c.extractLsb' 0 4

/-- DIR, bit 4 (R70, R72). -/
def fieldDir (c : Word) : BitVec 1 := c.extractLsb' 4 1

/-- RZ0, bits 7:5 (R70). -/
def fieldRz0 (c : Word) : BitVec 3 := c.extractLsb' 5 3

/-- LEN, bits 15:8, an unsigned byte count (R70, R73). -/
def fieldLen (c : Word) : BitVec 8 := c.extractLsb' 8 8

/-- RZ1, bits 31:16 (R70). -/
def fieldRz1 (c : Word) : BitVec 16 := c.extractLsb' 16 16

/-- `decode(c)` of R75, total over all words. -/
def decode (c : Word) : Except Illegal Instr :=
  if fieldRz1 c ≠ 0#16 ∨ fieldRz0 c ≠ 0#3 then .error .reservedBits
  else if fieldOp c = 1#4 then
    if fieldDir c = 0#1 then .ok (.ks (fieldLen c).toNat) else .error .direction
  else if fieldOp c = 2#4 then
    if fieldDir c = 0#1 then .ok (.enc (fieldLen c).toNat) else .ok (.dec (fieldLen c).toNat)
  else if fieldOp c = 3#4 then
    if fieldDir c ≠ 0#1 then .error .direction
    else if fieldLen c ≠ 0#8 then .error .length else .ok .t
  else if fieldOp c = 4#4 then
    if fieldDir c ≠ 0#1 then .error .direction
    else if fieldLen c ≠ 0#8 then .error .length else .ok .tp
  else .error .operation

/-- A row of R76: a word `c` selects the row when `(c &&& mask) = pattern`. -/
structure Row where
  mnemonic : String
  pattern : Word
  mask : Word
  deriving DecidableEq, Repr

/-- The row of R76 a command belongs to. -/
def Instr.row : Instr → Row
  | .ks _ => ⟨"SM4.KS", 0x00000001#32, 0xFFFF00FF#32⟩
  | .enc _ => ⟨"SM4.ENC", 0x00000002#32, 0xFFFF00FF#32⟩
  | .dec _ => ⟨"SM4.DEC", 0x00000012#32, 0xFFFF00FF#32⟩
  | .t => ⟨"SM4.T", 0x00000003#32, 0xFFFFFFFF#32⟩
  | .tp => ⟨"SM4.TP", 0x00000004#32, 0xFFFFFFFF#32⟩

/-- The table of R76, in its order. -/
def opcodeTable : List Row :=
  [(Instr.ks 0).row, (Instr.enc 0).row, (Instr.dec 0).row, Instr.t.row, Instr.tp.row]

/-- The free field of a command: LEN where the row leaves it free (R76). -/
def Instr.lenField : Instr → Word
  | .ks len => BitVec.ofNat 32 len <<< 8
  | .enc len => BitVec.ofNat 32 len <<< 8
  | .dec len => BitVec.ofNat 32 len <<< 8
  | .t => 0#32
  | .tp => 0#32

/-- The command word of a well-formed command: its row's pattern with LEN in bits 15:8 (R76, R79). -/
def encode (i : Instr) : Word := i.row.pattern ||| i.lenField

/-- The command the decoder reads from a table word of `nbits` bits. A command word is exactly one 32-bit write to
`CMD` (R70), so the bits above `nbits` are 0 and a word of more than 32 bits is no command. -/
def decodeTableWord (nbits w : Nat) : Option Instr :=
  if nbits ≤ 32 then
    match decode (BitVec.ofNat 32 (w % 2 ^ nbits)) with
    | .ok i => some i
    | .error _ => none
  else none

end Sys2Proof
end

