-- ==== Sys2Proof/Machine/Dispatch.lean ====
section
/-! DEFINITION. What a host write of a legal command word to `CMD` does, one arm per command
(60_exceptions.md R200; 70_reset_and_hazards.md R232). -/

namespace Sys2Proof.Machine

def exec (i : Instr) (s : State) : Host.Outcome State Fault Refusal :=
  match i with
  | .ks len => Sys2Proof.Machine.execKs len s
  | .enc len => Sys2Proof.Machine.execEnc len s
  | .dec len => Sys2Proof.Machine.execDec len s
  | .t => Sys2Proof.Machine.execT s
  | .tp => Sys2Proof.Machine.execTp s

end Sys2Proof.Machine
end

