-- ==== Sys2Proof/Machine/Window.lean ====
section
/-! DEFINITION. The register window: its map and what a host read or write of it does (20_memory.md R50 to R57). -/

namespace Sys2Proof.Machine

/-- The registers of the window (R51). -/
inductive Reg where
  | cmd
  | status
  | key (n : Fin 4)
  | data (n : Fin 4)
  | arg
  | res
  | rk (n : Fin 32)
  deriving DecidableEq, Repr

/-- `off(reg)` (R51). -/
def Reg.off (r : Reg) : BitVec 8 :=
  match r with
  | .cmd => 0x00#8
  | .status => 0x04#8
  | .key n => BitVec.ofNat 8 (0x10 + 4 * n.val)
  | .data n => BitVec.ofNat 8 (0x20 + 4 * n.val)
  | .arg => 0x30#8
  | .res => 0x34#8
  | .rk n => BitVec.ofNat 8 (0x80 + 4 * n.val)

/-- The register at word number n of the window, none where the map is reserved (R51). -/
def regAtWord (n : Nat) : Option Reg :=
  if n = 0 then some .cmd
  else if n = 1 then some .status
  else if n < 4 then none
  else if n < 8 then some (.key (Fin.ofNat 4 n))
  else if n < 12 then some (.data (Fin.ofNat 4 n))
  else if n = 12 then some .arg
  else if n = 13 then some .res
  else if n < 32 then none
  else some (.rk (Fin.ofNat 32 n))

/-- The register an access reaches: none, for a BusError, where the width is not 4, the offset is not a multiple of 4 or
the offset is reserved (R52 to R54). -/
def busTarget (off : BitVec 8) (width : Nat) : Option Reg :=
  if width = 4 ∧ off.toNat % 4 = 0 then regAtWord (off.toNat / 4) else none

/-- `issue_command(c)` (60_exceptions.md R200): an illegal word is rejected with ILLEGAL_CMD, another runs its
command's checks. Called while BUSY = 0. -/
def issueCommand (c : Word) (s : State) : Host.Outcome State Fault Refusal :=
  match decode c with
  | .error _ => .next (raiseCmdError .illegalCmd s)
  | .ok i => exec i s

/-- A host write to a register while BUSY = 0, the "write does" column of R51 (R56). `STATUS` has a rule of its own. -/
def writeIdle (r : Reg) (v : Word) (s : State) : Host.Outcome State Fault Refusal :=
  match r with
  | .cmd => issueCommand v s
  | .status => .next (writeStatus v s)
  | .key n => .next { s with key := quadSet s.key n v }
  | .data n => .next { s with data := quadSet s.data n v }
  | .arg => .next { s with arg := v }
  | .res => .next s
  | .rk _ => .next s

/-- A host write to a register: `STATUS` writes are performed whether BUSY is 0 or 1, any other write while BUSY = 1 is
dropped (R57). -/
def writeReg (r : Reg) (v : Word) (s : State) : Host.Outcome State Fault Refusal :=
  if r = .status then .next (writeStatus v s)
  else if s.busy then .next (dropWrite s)
  else writeIdle r v s

/-- Will the command write this register at its completion, so that a host read of it is open (10_state.md R31)? -/
def pendingWrites (p : Pending) (r : Reg) : Bool :=
  match p, r with
  | .enc _, .data _ => true
  | .dec _, .data _ => true
  | .t _, .res => true
  | .tp _, .res => true
  | _, _ => false

/-- A host read of this register returns `any` now (10_state.md R31). -/
def readOpen (r : Reg) (s : State) : Bool :=
  match s.pend with
  | some p => pendingWrites p r
  | none => false

/-- The "read returns" column of R51, less R31 (10_state.md R21, R22, R27 to R30, R32). -/
def regValue (r : Reg) (s : State) : Word :=
  match r with
  | .cmd => 0#32
  | .status => statusWord s
  | .key _ => 0#32
  | .data n => quadGet s.data n
  | .arg => s.arg
  | .res => s.res
  | .rk n => if s.keyValid then rkWord s.rk n else 0#32

/-- The value a host read returns: a fresh draw where R31 says `any`. -/
def readReg (r : Reg) (s : State) : Word := if readOpen r s then Config.freeWord s.draws else regValue r s

/-- A read has no side effect (R60); only the model's counter of draws moves on an open read (log 4). -/
def afterRead (r : Reg) (s : State) : State := if readOpen r s then { s with draws := s.draws + 1 } else s

/-- A host bus write of `v` at window offset `off` with the given width (R51 to R57). -/
def busWrite (off : BitVec 8) (width : Nat) (v : Word) (s : State) : Host.Outcome State Fault Refusal :=
  match busTarget off width with
  | none => raiseBusError off
  | some r => writeReg r v s

end Sys2Proof.Machine
end

