-- ==== Sys2Proof/Machine/HostMoves.lean ====
section
/-! DEFINITION. The host agent's step (00_scope.md R8, 30_encoding.md R80) and whose turn it is
(70_reset_and_hazards.md R234; log 2). -/

namespace Sys2Proof.Machine

/-- The value of a host variable among those set so far; one never set holds a free value (R80; log 10). -/
def lookupVar (vars : List (Nat × Word)) (h : Nat) : Word :=
  match vars with
  | [] => Config.unsetVar h
  | (i, v) :: rest => if i = h then v else lookupVar rest h

/-- The host variables with h set to v. -/
def storeVar (vars : List (Nat × Word)) (h : Nat) (v : Word) : List (Nat × Word) :=
  match vars with
  | [] => [(h, v)]
  | (i, u) :: rest => if i = h then (h, v) :: rest else (i, u) :: storeVar rest h v

/-- The value of host variable h. -/
def hostVar (s : State) (h : Nat) : Word := lookupVar s.host.vars h

/-- The value a host write sends (R80). -/
def hostValue (s : State) (v : HostVal) : Word :=
  match v with
  | .imm w => w
  | .var h => hostVar s h

/-- `h <- v` for a host variable. -/
def setVar (h : Nat) (v : Word) (s : State) : State := { s with host := { s.host with vars := storeVar s.host.vars h v } }

/-- The host goes on at place `n` of its program. -/
def hostGoto (n : Nat) (s : State) : State := { s with host := { s.host with pc := n } }

/-- The host goes on at the next place. -/
def hostAdvance (s : State) : State := hostGoto (s.host.pc + 1) s

/-- A host bus read at window offset `off` into host variable `t` (20_memory.md R51 to R57). -/
def busRead (off : BitVec 8) (width t : Nat) (s : State) : Host.Outcome State Fault Refusal :=
  match busTarget off width with
  | none => raiseBusError off
  | some r => .next (setVar t (readReg r s) (afterRead r s))

/-- One host instruction (R80). `W` and `R` make the bus transaction of a host step (00_scope.md R8). `BNZ`, `SET` and `DEC`
make none, and the spec does not say whether they are steps: here each is a step of its own (DESIGN CHOICE, log 17). -/
def hostInstr (hi : HostInstr) (s : State) : Host.Outcome State Fault Refusal :=
  match hi with
  | .write off width v => busWrite off width (hostValue s v) (hostAdvance s)
  | .read off width t => busRead off width t (hostAdvance s)
  | .bnz t mask label => .next (if hostVar s t &&& mask ≠ 0#32 then hostGoto label s else hostAdvance s)
  | .set h v => .next (setVar h v (hostAdvance s))
  | .dec h => .next (setVar h (hostVar s h - 1#32) (hostAdvance s))

/-- The host instruction at the host's place; none when the host program has taken its last step
(70_reset_and_hazards.md R242). -/
def hostFetch (s : State) : Option HostInstr := s.host.prog[s.host.pc]?

/-- The host's turn; one taken after its program is over changes nothing (log 2). -/
def hostTurn (s : State) : Host.Outcome State Fault Refusal :=
  match hostFetch s with
  | some hi => hostInstr hi s
  | none => .next s

/-- Whose turn it is: the listed turns first, then the completion a busy engine owes, else the host (R234, R242;
log 2). -/
def nextTurn (s : State) : Turn :=
  match s.turns with
  | turn :: _ => turn
  | [] => if s.busy then .engine else .host

/-- The schedule moved past the turn being taken. -/
def dropTurn (s : State) : State := { s with turns := s.turns.tail }

/-- The turn taken. -/
def takeTurn (turn : Turn) (s : State) : Host.Outcome State Fault Refusal :=
  match turn with
  | .host => hostTurn s
  | .engine => .next (engineTurn s)
  | .reset => .next (resetTurn s)

/-- The host program and schedule that make a write of `c` to `CMD` the very next step (log 3). -/
def placeCommand (c : Word) (s : State) : State :=
  { s with
    host := { s.host with prog := [.write Reg.cmd.off 4 (.imm c)], pc := 0 }
    turns := .host :: s.turns }

end Sys2Proof.Machine
end

