-- ==== Sys2Proof/Machine/HostProgram.lean ====
section
/-! DEFINITION. Command mnemonics and pseudo-instructions of the host-program form (30_encoding.md R79, R81). -/

namespace Sys2Proof.Machine

/-- A command as R79 writes it: `len=N` may be absent, and `.word` gives any raw word. -/
inductive Asm where
  | ks (len : Option Nat)
  | enc (len : Option Nat)
  | dec (len : Option Nat)
  | t
  | tp
  | word (c : Word)
  deriving DecidableEq, Repr

/-- The word of a mnemonic; an absent `len=` means 16 (R79). -/
def asmWord (a : Asm) : Word :=
  match a with
  | .ks len => encode (.ks (len.getD 16))
  | .enc len => encode (.enc (len.getD 16))
  | .dec len => encode (.dec (len.getD 16))
  | .t => encode .t
  | .tp => encode .tp
  | .word c => c

/-- `W <reg>, imm32` (R80). -/
def hostWrite (r : Reg) (v : Word) : HostInstr := .write r.off 4 (.imm v)

/-- `R <reg> -> t` (R80). -/
def hostRead (r : Reg) (t : Nat) : HostInstr := .read r.off 4 t

/-- `WAITIDLE` at place `here`, polling into host variable t (R81). -/
def waitIdle (here t : Nat) : List HostInstr := [hostRead .status t, .bnz t 0x1#32 here]

/-- `LOADKEY k0,k1,k2,k3` (R81), the four words immediates: the spec does not say whether they may be host variables (DESIGN
CHOICE, log 18). -/
def loadKey (q : Quad) : List HostInstr :=
  [hostWrite (.key 0) q.w0, hostWrite (.key 1) q.w1, hostWrite (.key 2) q.w2, hostWrite (.key 3) q.w3]

/-- `LOADDATA d0,d1,d2,d3` (R81), the four words immediates as in `loadKey` (DESIGN CHOICE, log 18). -/
def loadData (q : Quad) : List HostInstr :=
  [hostWrite (.data 0) q.w0, hostWrite (.data 1) q.w1, hostWrite (.data 2) q.w2, hostWrite (.data 3) q.w3]

/-- `SETKEY k0,k1,k2,k3` at place `here` (R81), the four words immediates as in `loadKey` (DESIGN CHOICE, log 18). -/
def setKey (q : Quad) (here t : Nat) : List HostInstr :=
  loadKey q ++ [hostWrite .cmd (asmWord (.ks none))] ++ waitIdle (here + 5) t

/-- `CLROVR` (R81). -/
def clrOvr : List HostInstr := [hostWrite .status 0x00000004#32]

end Sys2Proof.Machine
end

