-- ==== Sys2Proof/Safety.lean ====
section
/-! DEFINITION. The terms the statements use: what a step is about to do, the machine's invariant, final states, and
the rule software must respect. -/

namespace Sys2Proof.Machine

/-- The step about to be taken is a host write of `v` to register `r`. -/
def HostWrites (s : State) (r : Reg) (v : Word) : Prop :=
  nextTurn s = .host ∧ ∃ off width val,
    hostFetch s = some (.write off width val) ∧ busTarget off width = some r ∧ hostValue s val = v

/-- The step about to be taken is a host read of register `r` into host variable `t`. -/
def HostReads (s : State) (r : Reg) (t : Nat) : Prop :=
  nextTurn s = .host ∧ ∃ off width, hostFetch s = some (.read off width t) ∧ busTarget off width = some r

/-- The step about to be taken is the completion of `p` (70_reset_and_hazards.md R233). -/
def Completes (s : State) (p : Pending) : Prop := nextTurn s = .engine ∧ s.pend = some p

/-- The step about to be taken is a reset (70_reset_and_hazards.md R230). -/
def Resets (s : State) : Prop := nextTurn s = .reset

/-- The code a `CMD` write of `c` reports by the rows of 60_exceptions.md R202, in their order; none when no check
fails. -/
def firstFailing (c : Word) (s : State) : Option Err :=
  match decode c with
  | .error _ => some .illegalCmd
  | .ok (.ks len) => if len = 16 then none else some .keyLen
  | .ok (.enc len) => if len ≠ 16 then some .blockLen else if s.keyValid then none else some .noKey
  | .ok (.dec len) => if len ≠ 16 then some .blockLen else if s.keyValid then none else some .noKey
  | .ok .t => none
  | .ok .tp => none

/-- The step about to be taken is the acceptance of a command (70_reset_and_hazards.md R232). -/
def Accepts (s : State) (c : Word) : Prop := HostWrites s .cmd c ∧ s.busy = false ∧ firstFailing c s = none

/-- The step about to be taken is the rejection of a `CMD` write with `code` (60_exceptions.md R201). -/
def Rejects (s : State) (c : Word) (code : Err) : Prop :=
  HostWrites s .cmd c ∧ s.busy = false ∧ firstFailing c s = some code

/-- The snapshot in `pend` equals the live operand registers (10_state.md R36), and KEY_VALID is 0 during SM4.KS and 1
during SM4.ENC and SM4.DEC (R24). -/
def PendingAgrees (s : State) : Prop :=
  match s.pend with
  | none => True
  | some (.ks key) => key = s.key ∧ s.keyValid = false
  | some (.enc block) => block = s.data ∧ s.keyValid = true
  | some (.dec block) => block = s.data ∧ s.keyValid = true
  | some (.t a) => a = s.arg
  | some (.tp a) => a = s.arg

/-- The machine's invariant. -/
structure EngineInv (s : State) : Prop where
  /-- Snapshot and live registers agree (10_state.md R36). -/
  pending : PendingAgrees s
  /-- ERR is 0 from acceptance to completion (10_state.md R26). -/
  errWhileBusy : s.busy = true → s.err = .noError
  /-- While KEY_VALID = 1 the file holds a schedule (10_state.md R22, R24). -/
  schedule : s.keyValid = true → ∃ key, s.rk = keySchedule key

/-- A run is over: the host program has taken its last step and BUSY = 0 (70_reset_and_hazards.md R242). -/
def Final (s : State) : Prop := hostFetch s = none ∧ s.busy = false

/-- The host's next instruction respects the wait rule of 70_reset_and_hazards.md R236: while BUSY = 1 it writes no
register but `STATUS` and reads no register the command in flight will write. -/
def WaitRule (s : State) : Prop :=
  s.busy = true →
    (∀ off width v r, hostFetch s = some (.write off width v) → busTarget off width = some r → r = .status) ∧
    (∀ off width t r, hostFetch s = some (.read off width t) → busTarget off width = some r → readOpen r s = false)

end Sys2Proof.Machine
end

