-- ==== Sys2Proof/Certificates/Slice0/Obligations.lean ====
section
/-! DEFINITION. The statements for the provers. Each docstring names the rule of spec/ it formalises. -/

open Sys2Proof Sys2Proof.Machine

/-! ### Encoding -/

/-- R75, R76: decoding an encoded well-formed command gives it back, every LEN included. -/
def Obligations.EncodedCommandsDecodeBack : Prop :=
  ∀ i, WellFormed i → decode (encode i) = .ok i

/-- R75: a word that decodes is the encoding of what it decodes to, which is well formed. -/
def Obligations.DecodedWordsEncodeBack : Prop :=
  ∀ c i, decode c = .ok i → WellFormed i ∧ encode i = c

/-- R75: every line of `decode`, by the fields of the word, and ILLEGAL exactly for the words no row matches. -/
def Obligations.DecodeFollowsFields : Prop :=
  ∀ c : Word,
    (c.extractLsb' 16 16 ≠ 0#16 ∨ c.extractLsb' 5 3 ≠ 0#3 → ∃ e, decode c = .error e) ∧
    (c.extractLsb' 16 16 = 0#16 → c.extractLsb' 5 3 = 0#3 →
      (c.extractLsb' 0 4 = 1#4 →
        (c.getLsbD 4 = false → decode c = .ok (.ks (c.extractLsb' 8 8).toNat)) ∧
        (c.getLsbD 4 = true → ∃ e, decode c = .error e)) ∧
      (c.extractLsb' 0 4 = 2#4 →
        (c.getLsbD 4 = false → decode c = .ok (.enc (c.extractLsb' 8 8).toNat)) ∧
        (c.getLsbD 4 = true → decode c = .ok (.dec (c.extractLsb' 8 8).toNat))) ∧
      (c.extractLsb' 0 4 = 3#4 →
        (c.getLsbD 4 = false → c.extractLsb' 8 8 = 0#8 → decode c = .ok .t) ∧
        (c.getLsbD 4 = true ∨ c.extractLsb' 8 8 ≠ 0#8 → ∃ e, decode c = .error e)) ∧
      (c.extractLsb' 0 4 = 4#4 →
        (c.getLsbD 4 = false → c.extractLsb' 8 8 = 0#8 → decode c = .ok .tp) ∧
        (c.getLsbD 4 = true ∨ c.extractLsb' 8 8 ≠ 0#8 → ∃ e, decode c = .error e)) ∧
      (c.extractLsb' 0 4 = 0#4 ∨ 5#4 ≤ c.extractLsb' 0 4 → ∃ e, decode c = .error e)) ∧
    ((∃ e, decode c = .error e) ↔ ∀ row ∈ opcodeTable, c &&& row.mask ≠ row.pattern)

/-- R76: a word selects a mnemonic exactly when its mask and match say so, and no word selects two. -/
def Obligations.DecodeSelectsItsRow : Prop :=
  (∀ c : Word, (∃ len, decode c = .ok (.ks len)) ↔ c &&& 0xFFFF00FF#32 = 0x00000001#32) ∧
  (∀ c : Word, (∃ len, decode c = .ok (.enc len)) ↔ c &&& 0xFFFF00FF#32 = 0x00000002#32) ∧
  (∀ c : Word, (∃ len, decode c = .ok (.dec len)) ↔ c &&& 0xFFFF00FF#32 = 0x00000012#32) ∧
  (∀ c : Word, decode c = .ok .t ↔ c &&& 0xFFFFFFFF#32 = 0x00000003#32) ∧
  (∀ c : Word, decode c = .ok .tp ↔ c &&& 0xFFFFFFFF#32 = 0x00000004#32) ∧
  (∀ c : Word, ∀ r ∈ opcodeTable, ∀ q ∈ opcodeTable,
    c &&& r.mask = r.pattern → c &&& q.mask = q.pattern → r = q)

/-- R77: the illegal words are exactly the four bullets, and writing one while BUSY = 0 gets ILLEGAL_CMD. -/
def Obligations.IllegalWordsAreRejected : Prop :=
  ∀ c : Word,
    ((∃ e, decode c = .error e) ↔
      (c.extractLsb' 16 16 ≠ 0#16 ∨ c.extractLsb' 5 3 ≠ 0#3) ∨
      (c.extractLsb' 0 4 = 0#4 ∨ 5#4 ≤ c.extractLsb' 0 4) ∨
      (c.getLsbD 4 = true ∧ (c.extractLsb' 0 4 = 1#4 ∨ c.extractLsb' 0 4 = 3#4 ∨ c.extractLsb' 0 4 = 4#4)) ∨
      (c.extractLsb' 8 8 ≠ 0#8 ∧ (c.extractLsb' 0 4 = 3#4 ∨ c.extractLsb' 0 4 = 4#4))) ∧
    ∀ s : State, s.busy = false → (∃ e, decode c = .error e) →
      busWrite 0x00#8 4 c s = .next { s with err := .illegalCmd }

/-- R78: a LEN other than 16 is not illegal: the word decodes to its mnemonic, and its command is rejected with KEY_LEN
or BLOCK_LEN. -/
def Obligations.WrongLengthsDecodeAndAreRejected : Prop :=
  ∀ len : Nat, len < 256 → len ≠ 16 → ∀ s : State, s.busy = false →
    (decode (0x00000001#32 ||| BitVec.ofNat 32 len <<< 8) = .ok (.ks len) ∧
      busWrite 0x00#8 4 (0x00000001#32 ||| BitVec.ofNat 32 len <<< 8) s = .next { s with err := .keyLen }) ∧
    (decode (0x00000002#32 ||| BitVec.ofNat 32 len <<< 8) = .ok (.enc len) ∧
      busWrite 0x00#8 4 (0x00000002#32 ||| BitVec.ofNat 32 len <<< 8) s = .next { s with err := .blockLen }) ∧
    (decode (0x00000012#32 ||| BitVec.ofNat 32 len <<< 8) = .ok (.dec len) ∧
      busWrite 0x00#8 4 (0x00000012#32 ||| BitVec.ofNat 32 len <<< 8) s = .next { s with err := .blockLen })

/-- Words written out from the encodings of R76 decode to their commands. -/
def Obligations.WrittenOutWordsDecode : Prop :=
  decode 0b00000000000000000001000000000001#32 = .ok (.ks 16) ∧
  decode 0b00000000000000000001000000000010#32 = .ok (.enc 16) ∧
  decode 0b00000000000000000001000000010010#32 = .ok (.dec 16) ∧
  decode 0b00000000000000000000000000000011#32 = .ok .t ∧
  decode 0b00000000000000000000000000000100#32 = .ok .tp

/-- R79: the words of the mnemonics, with `len=` absent or N in 0..255, and raw words. -/
def Obligations.MnemonicsHaveTheirWords : Prop :=
  asmWord (.ks none) = 0x00001001#32 ∧ asmWord (.enc none) = 0x00001002#32 ∧ asmWord (.dec none) = 0x00001012#32 ∧
  (∀ n : Nat, n < 256 →
    asmWord (.ks (some n)) = 0x00000001#32 ||| BitVec.ofNat 32 n <<< 8 ∧
    asmWord (.enc (some n)) = 0x00000002#32 ||| BitVec.ofNat 32 n <<< 8 ∧
    asmWord (.dec (some n)) = 0x00000012#32 ||| BitVec.ofNat 32 n <<< 8) ∧
  asmWord .t = 0x00000003#32 ∧ asmWord .tp = 0x00000004#32 ∧ ∀ c, asmWord (.word c) = c

/-! ### The register window -/

/-- R51: an access of width 4 at `off(reg)` reaches that register, and an access that reaches a register is a 32-bit one
at that register's offset; the offsets are R51's. -/
def Obligations.WindowMapIsExact : Prop :=
  (∀ r : Reg, busTarget r.off 4 = some r) ∧
  (∀ off width r, busTarget off width = some r → width = 4 ∧ off = r.off) ∧
  (Reg.off .cmd = 0x00#8 ∧ Reg.off .status = 0x04#8 ∧ Reg.off .arg = 0x30#8 ∧ Reg.off .res = 0x34#8) ∧
  (∀ n : Fin 4, (Reg.off (.key n)).toNat = 0x10 + 4 * n.val ∧ (Reg.off (.data n)).toNat = 0x20 + 4 * n.val) ∧
  (∀ n : Fin 32, (Reg.off (.rk n)).toNat = 0x80 + 4 * n.val)

/-- R54: an aligned 32-bit access to a reserved offset of R51 gets BusError, whatever the state. -/
def Obligations.ReservedOffsetsDrawBusError : Prop :=
  ∀ (s : State) (off : BitVec 8) (v : Word) (t : Nat), off.toNat % 4 = 0 →
    off = 0x08#8 ∨ off = 0x0C#8 ∨ (0x38#8 ≤ off ∧ off ≤ 0x7C#8) →
    busWrite off 4 v s = .fault (.busError (Config.smBase + off.toNat)) ∧
    busRead off 4 t s = .fault (.busError (Config.smBase + off.toNat))

/-- R52 to R55: a step faults exactly on a host access of another width, misaligned or reserved, with the address of
that access. The machine refuses nothing. -/
def Obligations.StepFaultsExactlyOnBadAccesses : Prop :=
  ∀ s : State,
    (∀ f, step s = .fault f ↔
      nextTurn s = .host ∧ ∃ off width,
        ((∃ v, hostFetch s = some (.write off width v)) ∨ ∃ t, hostFetch s = some (.read off width t)) ∧
        (width ≠ 4 ∨ off.toNat % 4 ≠ 0 ∨ (0x08#8 ≤ off ∧ off < 0x10#8) ∨ (0x38#8 ≤ off ∧ off < 0x80#8)) ∧
        f = .busError (Config.smBase + off.toNat)) ∧
    ∀ r, step s ≠ .refused r

/-- R57: while BUSY = 1 a write to a non-reserved offset other than `STATUS` changes no register and sets OVERRUN, a
reserved offset gets BusError first, and a write to `STATUS` is performed. -/
def Obligations.BusyWritesAreDropped : Prop :=
  ∀ (s : State) (v : Word), s.busy = true →
    (∀ r : Reg, r ≠ .status → busWrite r.off 4 v s = .next { s with overrun := true }) ∧
    (∀ off : BitVec 8, busTarget off 4 = none → busWrite off 4 v s = .fault (.busError (Config.smBase + off.toNat))) ∧
    busWrite 0x04#8 4 v s = .next { s with overrun := if v.getLsbD 2 then false else s.overrun }

/-- R56: while BUSY = 0 writes to the read-only `RES` and `RK[n]` are ignored and the bus responds normally; reads of the
write-only `CMD` and `KEY[n]` return 0. -/
def Obligations.ReadOnlyAndWriteOnlyRegisters : Prop :=
  (∀ (s : State) (v : Word), s.busy = false →
    busWrite 0x34#8 4 v s = .next s ∧ ∀ n : Fin 32, busWrite (Reg.off (.rk n)) 4 v s = .next s) ∧
  ∀ (s : State) (t : Nat),
    busRead 0x00#8 4 t s = .next (setVar t 0#32 s) ∧ ∀ n : Fin 4, busRead (Reg.off (.key n)) 4 t s = .next (setVar t 0#32 s)

/-- R60: no read has a side effect: a host read leaves every register, and a second read of a register returns the
same value unless R31 makes it `any`. -/
def Obligations.ReadsHaveNoSideEffect : Prop :=
  ∀ (s u : State) (r : Reg) (t : Nat), busRead r.off 4 t s = .next u →
    u = { s with host := u.host, draws := u.draws } ∧
    (readOpen r s = false → u.draws = s.draws ∧ hostVar u t = readReg r s ∧ readReg r u = readReg r s)

/-- R27, D13: the key is not readable back: two states that differ only in `KEY` answer every host read alike. -/
def Obligations.KeyIsNeverObservedByReads : Prop :=
  ∀ (s : State) (key : Quad) (off : BitVec 8) (width t : Nat),
    (∀ u, busRead off width t s = .next u → busRead off width t { s with key := key } = .next { u with key := key }) ∧
    ∀ f, busRead off width t s = .fault f → busRead off width t { s with key := key } = .fault f

/-- R31: while a command is in flight, a read of a register it will write returns a fresh draw, every other read its
register's value, and `RK` reads 0 during SM4.KS. The draw is the model's free value (log 4). -/
def Obligations.ReadsDuringFlight : Prop :=
  ∀ (s : State) (t : Nat),
    (∀ d, s.pend = some (.enc d) ∨ s.pend = some (.dec d) → ∀ n : Fin 4,
      busRead (Reg.off (.data n)) 4 t s =
        .next (setVar t (Config.freeWord s.draws) { s with draws := s.draws + 1 })) ∧
    (∀ a, s.pend = some (.t a) ∨ s.pend = some (.tp a) →
      busRead 0x34#8 4 t s = .next (setVar t (Config.freeWord s.draws) { s with draws := s.draws + 1 })) ∧
    (∀ p r, s.pend = some p →
      (∀ d, p = .enc d ∨ p = .dec d → ∀ n, r ≠ .data n) → (∀ a, p = .t a ∨ p = .tp a → r ≠ .res) →
      busRead r.off 4 t s = .next (setVar t (regValue r s) s)) ∧
    (∀ key, EngineInv s → s.pend = some (.ks key) → ∀ n : Fin 32,
      busRead (Reg.off (.rk n)) 4 t s = .next (setVar t 0#32 s))

/-- R32: `RK[n]` is group n/4, word n%4; a read returns it when KEY_VALID = 1 and 0 when KEY_VALID = 0; a write to it
is ignored while BUSY = 0, and never changes the file. -/
def Obligations.RoundKeyWindow : Prop :=
  ∀ (s : State) (n : Fin 32) (t : Nat) (v : Word),
    BitVec.toNat (Reg.off (.rk n)) = 0x80 + 4 * n.val ∧
    (∀ (g : Fin 8) (j : Fin 4), n.val / 4 = g.val → n.val % 4 = j.val → rkWord s.rk n = quadGet (rkGroup s.rk g) j) ∧
    busRead (Reg.off (.rk n)) 4 t s = .next (setVar t (if s.keyValid then rkWord s.rk n else 0#32) s) ∧
    (s.busy = false → busWrite (Reg.off (.rk n)) 4 v s = .next s) ∧
    ∃ u, busWrite (Reg.off (.rk n)) 4 v s = .next u ∧ u.rk = s.rk

/-- R22: the bits of the word a read of `STATUS` returns, and that a write of it changes OVERRUN alone. -/
def Obligations.StatusWordFields : Prop :=
  ∀ (s : State) (v : Word) (t : Nat),
    busRead 0x04#8 4 t s = .next (setVar t (statusWord s) s) ∧
    (statusWord s).getLsbD 0 = s.busy ∧ (statusWord s).getLsbD 1 = s.keyValid ∧
    (statusWord s).getLsbD 2 = s.overrun ∧ (statusWord s).extractLsb' 8 4 = errCode s.err ∧
    (statusWord s).extractLsb' 3 5 = 0#5 ∧ (statusWord s).extractLsb' 12 20 = 0#20 ∧
    busWrite 0x04#8 4 v s = .next { s with overrun := if v.getLsbD 2 then false else s.overrun }

/-- R61: a read of `STATUS` right after a `CMD` write shows its result: BUSY = 1 and ERR = 0 if it was accepted, BUSY = 0
and the code if it was rejected. -/
def Obligations.StatusShowsTheIssueAtOnce : Prop :=
  ∀ (s : State) (c : Word), s.busy = false → ∃ u, busWrite 0x00#8 4 c s = .next u ∧
    (firstFailing c s = none → (statusWord u).getLsbD 0 = true ∧ (statusWord u).extractLsb' 8 4 = 0#4) ∧
    ∀ e, firstFailing c s = some e →
      (statusWord u).getLsbD 0 = false ∧ (statusWord u).extractLsb' 8 4 = errCode e ∧ errCode e ≠ 0#4

/-! ### The round-function engine -/

/-- R104: bit n of x lands at bit n + i modulo 32, for every amount; amounts 0, 32, 64 change nothing, 33 is 1. -/
def Obligations.RotateLeftMovesBits : Prop :=
  (∀ (x : Word) (i n : Nat), n < 32 → (rotl x i).getLsbD ((n + i) % 32) = x.getLsbD n) ∧
  (∀ x : Word, rotl x 0 = x ∧ rotl x 32 = x ∧ rotl x 64 = x ∧ rotl x 33 = rotl x 1) ∧
  rotl 0x12345678#32 4 = 0x23456781#32

/-- R105: tau substitutes each byte in place, and is a bijection on words. -/
def Obligations.TauIsABytewiseBijection : Prop :=
  (∀ a : Word,
    (tau a).extractLsb' 24 8 = sbox (a.extractLsb' 24 8) ∧ (tau a).extractLsb' 16 8 = sbox (a.extractLsb' 16 8) ∧
    (tau a).extractLsb' 8 8 = sbox (a.extractLsb' 8 8) ∧ (tau a).extractLsb' 0 8 = sbox (a.extractLsb' 0 8)) ∧
  Function.Bijective tau

/-- R115: L and L′ are linear over XOR and fix 0 and the all-ones word; tau, T and T′ are not linear. -/
def Obligations.DiffusionIsLinear : Prop :=
  (∀ a b : Word, linL (a ^^^ b) = linL a ^^^ linL b ∧ linLp (a ^^^ b) = linLp a ^^^ linLp b) ∧
  linL 0#32 = 0#32 ∧ linLp 0#32 = 0#32 ∧ linL 0xFFFFFFFF#32 = 0xFFFFFFFF#32 ∧ linLp 0xFFFFFFFF#32 = 0xFFFFFFFF#32 ∧
  (∃ a b, tau (a ^^^ b) ≠ tau a ^^^ tau b) ∧ (∃ a b, roundT (a ^^^ b) ≠ roundT a ^^^ roundT b) ∧
  ∃ a b, roundTp (a ^^^ b) ≠ roundTp a ^^^ roundTp b

/-- 95 §2.2: T and T′ commute with rotation by a byte. -/
def Obligations.RoundFunctionsCommuteWithByteRotation : Prop :=
  ∀ x : Word, roundT (rotl x 8) = rotl (roundT x) 8 ∧ roundTp (rotl x 8) = rotl (roundTp x) 8

/-- R102, R103: the S-box is a permutation of the bytes with exactly one fixed point, 0xAB. -/
def Obligations.SboxIsAPermutation : Prop :=
  Function.Bijective sbox ∧ ∀ b, sbox b = b ↔ b = 0xAB#8

/-- R13, R28, R58: loading 16 bytes into four words and taking the bytes back gives the bytes, and byte 4n+m is bits
(31-8m):(24-8m) of word n. -/
def Obligations.BlockBytesAreBigEndian : Prop :=
  ∀ b : Vector Byte 16, bytesOfQuad (quadOfBytes b) = b.toList ∧
    ∀ (n m : Fin 4), (quadGet (quadOfBytes b) n).extractLsb' (24 - 8 * m.val) 8 = b[4 * n.val + m.val]

/-! ### The commands -/

/-- R112: SM4.T. Acceptance, completion, the words rejected, and the corner cases. -/
def Obligations.TCommand : Prop :=
  (∀ s : State, s.busy = false →
    exec .t s = .next { s with pend := some (.t s.arg), err := .noError } ∧
    engineTurn { s with pend := some (.t s.arg), err := .noError } =
      { s with pend := none, err := .noError, res := roundT s.arg } ∧
    busWrite 0x00#8 4 0x00000003#32 s = exec .t s ∧
    ∀ c : Word, c.extractLsb' 0 4 = 3#4 → c ≠ 0x00000003#32 → busWrite 0x00#8 4 c s = .next { s with err := .illegalCmd }) ∧
  roundT 0#32 = 0x5B5B5B5B#32 ∧ roundT 0xFFFFFFFF#32 = 0x21212121#32 ∧ roundT 0x01234567#32 = 0x6EF180C9#32

/-- R113: SM4.TP. Acceptance, completion, the words rejected, and the corner cases. -/
def Obligations.TpCommand : Prop :=
  (∀ s : State, s.busy = false →
    exec .tp s = .next { s with pend := some (.tp s.arg), err := .noError } ∧
    engineTurn { s with pend := some (.tp s.arg), err := .noError } =
      { s with pend := none, err := .noError, res := roundTp s.arg } ∧
    busWrite 0x00#8 4 0x00000004#32 s = exec .tp s ∧
    ∀ c : Word, c.extractLsb' 0 4 = 4#4 → c ≠ 0x00000004#32 → busWrite 0x00#8 4 c s = .next { s with err := .illegalCmd }) ∧
  roundTp 0#32 = 0x67676767#32 ∧ roundTp 0xFFFFFFFF#32 = 0x65656565#32 ∧ roundTp 0x01234567#32 = 0xCFC85B85#32

/-- R133: SM4.KS. Acceptance with LEN = 16, completion, rejection, and the corner cases. The value of the hidden words `k`
after the completion is the model's, DEDUCED (log 6): the spec leaves it open. -/
def Obligations.KsCommand : Prop :=
  (∀ s : State, s.busy = false →
    exec (.ks 16) s = .next { s with pend := some (.ks s.key), keyValid := false, err := .noError } ∧
    engineTurn { s with pend := some (.ks s.key), keyValid := false, err := .noError } =
      { s with
        pend := none, err := .noError, keyValid := true, rk := keySchedule s.key, k := ksState s.key 8 } ∧
    (∀ c : Word, c &&& 0xFFFF00FF#32 = 0x00000001#32 →
      busWrite 0x00#8 4 c s = exec (.ks (c.extractLsb' 8 8).toNat) s) ∧
    (∀ len, len ≠ 16 → exec (.ks len) s = .next { s with err := .keyLen }) ∧
    ∀ c : Word, c.extractLsb' 0 4 = 1#4 → c.getLsbD 4 = true ∨ c.extractLsb' 5 3 ≠ 0#3 ∨ c.extractLsb' 16 16 ≠ 0#16 →
      busWrite 0x00#8 4 c s = .next { s with err := .illegalCmd }) ∧
  rkWord (keySchedule ⟨0#32, 0#32, 0#32, 0#32⟩) 0 = 0x45603B23#32 ∧
  rkWord (keySchedule ⟨0x01234567#32, 0x89ABCDEF#32, 0xFEDCBA98#32, 0x76543210#32⟩) 0 = 0xF12186F9#32 ∧
  rkWord (keySchedule ⟨0x01234567#32, 0x89ABCDEF#32, 0xFEDCBA98#32, 0x76543210#32⟩) 31 = 0x9124A012#32

/-- R155: SM4.ENC. Acceptance with LEN = 16 and KEY_VALID = 1, completion from whatever state holds the command,
rejections in their order, `DATA` reads open while it is in flight, and the example. The value of the hidden words `x`
after the completion is the model's, DEDUCED (log 6): the spec leaves it open. -/
def Obligations.EncCommand : Prop :=
  (∀ s : State, s.busy = false →
    (s.keyValid = true → exec (.enc 16) s = .next { s with pend := some (.enc s.data), err := .noError } ∧
      engineTurn { s with pend := some (.enc s.data), err := .noError } =
        { s with
          pend := none, err := .noError, data := transform .encrypt s.rk s.data,
          x := blockSteps .encrypt s.rk s.data }) ∧
    (∀ c : Word, c &&& 0xFFFF00FF#32 = 0x00000002#32 →
      busWrite 0x00#8 4 c s = exec (.enc (c.extractLsb' 8 8).toNat) s) ∧
    (∀ c : Word, c.extractLsb' 0 5 = 2#5 → c.extractLsb' 5 3 ≠ 0#3 ∨ c.extractLsb' 16 16 ≠ 0#16 →
      busWrite 0x00#8 4 c s = .next { s with err := .illegalCmd }) ∧
    (∀ len, len ≠ 16 → exec (.enc len) s = .next { s with err := .blockLen }) ∧
    (s.keyValid = false → exec (.enc 16) s = .next { s with err := .noKey })) ∧
  (∀ (u : State) (block : Quad), u.pend = some (.enc block) → engineTurn u =
    { u with pend := none, data := transform .encrypt u.rk block, x := blockSteps .encrypt u.rk block }) ∧
  (∀ (u : State) (block : Quad) (n : Fin 4), u.pend = some (.enc block) → readOpen (.data n) u = true) ∧
  transform .encrypt (keySchedule ⟨0x01234567#32, 0x89ABCDEF#32, 0xFEDCBA98#32, 0x76543210#32⟩)
    ⟨0x01234567#32, 0x89ABCDEF#32, 0xFEDCBA98#32, 0x76543210#32⟩ = ⟨0x681EDF34#32, 0xD206965E#32, 0x86B3E94F#32, 0x536E4246#32⟩

/-- R156: SM4.DEC. As SM4.ENC, with the decrypt key order. The value of the hidden words `x` after the completion is the
model's, DEDUCED (log 6): the spec leaves it open. -/
def Obligations.DecCommand : Prop :=
  (∀ s : State, s.busy = false →
    (s.keyValid = true → exec (.dec 16) s = .next { s with pend := some (.dec s.data), err := .noError } ∧
      engineTurn { s with pend := some (.dec s.data), err := .noError } =
        { s with
          pend := none, err := .noError, data := transform .decrypt s.rk s.data,
          x := blockSteps .decrypt s.rk s.data }) ∧
    (∀ c : Word, c &&& 0xFFFF00FF#32 = 0x00000012#32 →
      busWrite 0x00#8 4 c s = exec (.dec (c.extractLsb' 8 8).toNat) s) ∧
    (∀ c : Word, c.extractLsb' 0 5 = 18#5 → c.extractLsb' 5 3 ≠ 0#3 ∨ c.extractLsb' 16 16 ≠ 0#16 →
      busWrite 0x00#8 4 c s = .next { s with err := .illegalCmd }) ∧
    (∀ len, len ≠ 16 → exec (.dec len) s = .next { s with err := .blockLen }) ∧
    (s.keyValid = false → exec (.dec 16) s = .next { s with err := .noKey })) ∧
  (∀ (u : State) (block : Quad), u.pend = some (.dec block) → engineTurn u =
    { u with pend := none, data := transform .decrypt u.rk block, x := blockSteps .decrypt u.rk block }) ∧
  (∀ (u : State) (block : Quad) (n : Fin 4), u.pend = some (.dec block) → readOpen (.data n) u = true) ∧
  transform .decrypt (keySchedule ⟨0x01234567#32, 0x89ABCDEF#32, 0xFEDCBA98#32, 0x76543210#32⟩)
    ⟨0x681EDF34#32, 0xD206965E#32, 0x86B3E94F#32, 0x536E4246#32⟩ = ⟨0x01234567#32, 0x89ABCDEF#32, 0xFEDCBA98#32, 0x76543210#32⟩

/-- R232: acceptance of each command's canonical word, written to `CMD` while BUSY = 0. -/
def Obligations.AcceptanceCapturesOperands : Prop :=
  ∀ s : State, s.busy = false →
    busWrite 0x00#8 4 0x00001001#32 s =
      .next { s with pend := some (.ks s.key), keyValid := false, err := .noError } ∧
    (s.keyValid = true →
      busWrite 0x00#8 4 0x00001002#32 s = .next { s with pend := some (.enc s.data), err := .noError } ∧
      busWrite 0x00#8 4 0x00001012#32 s = .next { s with pend := some (.dec s.data), err := .noError }) ∧
    busWrite 0x00#8 4 0x00000003#32 s = .next { s with pend := some (.t s.arg), err := .noError } ∧
    busWrite 0x00#8 4 0x00000004#32 s = .next { s with pend := some (.tp s.arg), err := .noError }

/-- R233: the engine's step, when it is the engine's turn: the results of the command in flight and BUSY <- 0, a function
of `pend` and `RK` alone. Two clauses are the model's and not R233's: an engine turn with nothing in flight uses up the turn
and changes nothing else (DESIGN CHOICE, log 2), and the hidden words `x` and `k` keep what the rules' last step leaves in
them (DEDUCED, log 6). -/
def Obligations.CompletionWritesResults : Prop :=
  ∀ s : State, nextTurn s = .engine →
    (s.pend = none → step s = .next (dropTurn s)) ∧
    (∀ key, s.pend = some (.ks key) → ∃ u, step s = .next u ∧ u =
      { dropTurn s with rk := keySchedule key, keyValid := true, k := ksState key 8, pend := none }) ∧
    (∀ block, s.pend = some (.enc block) → ∃ u, step s = .next u ∧ u =
      { dropTurn s with
        data := transform .encrypt s.rk block, x := blockSteps .encrypt s.rk block, pend := none }) ∧
    (∀ block, s.pend = some (.dec block) → ∃ u, step s = .next u ∧ u =
      { dropTurn s with
        data := transform .decrypt s.rk block, x := blockSteps .decrypt s.rk block, pend := none }) ∧
    (∀ a, s.pend = some (.t a) → step s = .next { dropTurn s with res := roundT a, pend := none }) ∧
    (∀ a, s.pend = some (.tp a) → step s = .next { dropTurn s with res := roundTp a, pend := none })

/-- R201: a rejected `CMD` write changes ERR and nothing else, and the bus write completes normally. -/
def Obligations.RejectionChangesErrAlone : Prop :=
  ∀ (s : State) (c : Word) (code : Err), s.busy = false → firstFailing c s = some code →
    busWrite 0x00#8 4 c s = .next { s with err := code }

/-- R202: the codes, their causes, and the order of the checks. -/
def Obligations.CommandChecksInOrder : Prop :=
  (errCode .noError = 0#4 ∧ errCode .illegalCmd = 1#4 ∧ errCode .keyLen = 2#4 ∧ errCode .blockLen = 3#4 ∧
    errCode .noKey = 4#4 ∧ ∀ e, errCode e ≤ 4#4) ∧
  State.reset.err = .noError ∧
  ∀ (s : State) (c : Word), s.busy = false → ∃ u, busWrite 0x00#8 4 c s = .next u ∧
    ((∃ e, decode c = .error e) → u.err = .illegalCmd ∧ u.busy = false) ∧
    (∀ len, decode c = .ok (.ks len) →
      (len ≠ 16 → u.err = .keyLen ∧ u.busy = false) ∧ (len = 16 → u.err = .noError ∧ u.busy = true)) ∧
    (∀ len, decode c = .ok (.enc len) ∨ decode c = .ok (.dec len) →
      (len ≠ 16 → u.err = .blockLen ∧ u.busy = false) ∧
      (len = 16 → s.keyValid = false → u.err = .noKey ∧ u.busy = false) ∧
      (len = 16 → s.keyValid = true → u.err = .noError ∧ u.busy = true)) ∧
    (decode c = .ok .t ∨ decode c = .ok .tp → u.err = .noError ∧ u.busy = true)

/-- R235: one command at a time, none queued: a `CMD` write while BUSY = 1, legal or not, is dropped. -/
def Obligations.BusyCommandsAreDropped : Prop :=
  ∀ s : State, s.busy = true →
    (∀ c : Word, busWrite 0x00#8 4 c s = .next { s with overrun := true }) ∧
    ∀ i : Instr, exec i s = .next { s with overrun := true }

/-- R203: an accepted command always completes, with its result; SM4.T and SM4.TP can raise only ILLEGAL_CMD, that is,
nothing once decoded. -/
def Obligations.AcceptedCommandsCannotFail : Prop :=
  (∀ s : State, s.busy = true → nextTurn s = .engine →
    ∃ u, step s = .next u ∧ u.busy = false ∧ u.err = s.err ∧ ∀ p, s.pend = some p → u = complete p (dropTurn s)) ∧
  ∀ s : State, s.busy = false → ∀ i : Instr, i = .t ∨ i = .tp →
    ∃ u, exec i s = .next u ∧ u.err = .noError ∧ u.busy = true

/-- A command issue's frame: whatever it answers, no operand, result, round-key or hidden register changes, OVERRUN
only while BUSY = 1, KEY_VALID only when SM4.KS is accepted. The value of every register of the window but `STATUS` and
`RK` is the one it had, `RK` too but for an accepted SM4.KS; that is the value less R31, which makes reads of `DATA` or
`RES` open once a command that will write them is accepted (ReadsDuringFlight). -/
def Obligations.CommandFrame : Prop :=
  ∀ (i : Instr) (s u : State), exec i s = .next u →
    u.key = s.key ∧ u.data = s.data ∧ u.arg = s.arg ∧ u.res = s.res ∧ u.rk = s.rk ∧ u.x = s.x ∧ u.k = s.k ∧
    u.host = s.host ∧ u.turns = s.turns ∧ u.draws = s.draws ∧
    u.overrun = (s.overrun || s.busy) ∧
    (s.busy = true → u.pend = s.pend ∧ u.err = s.err) ∧
    (u.keyValid ≠ s.keyValid → s.busy = false ∧ i = .ks 16 ∧ u.keyValid = false) ∧
    (∀ r : Reg, r ≠ .status → (∀ n, r ≠ .rk n) → regValue r u = regValue r s) ∧
    (u.keyValid = s.keyValid → ∀ n, regValue (.rk n) u = regValue (.rk n) s)

/-- A completion's frame: SM4.KS writes `RK`, `k` and KEY_VALID; SM4.ENC and SM4.DEC write `DATA` and `x`; SM4.T and
SM4.TP write `RES`; each ends its command, and nothing else changes. The value of every register of the window but
`STATUS` and the command's results is the one it had. -/
def Obligations.CompletionFrame : Prop :=
  ∀ (p : Pending) (s : State), s.pend = some p →
    ((engineTurn s).key = s.key ∧ (engineTurn s).arg = s.arg ∧ (engineTurn s).overrun = s.overrun ∧
      (engineTurn s).err = s.err ∧ (engineTurn s).host = s.host ∧ (engineTurn s).turns = s.turns ∧
      (engineTurn s).draws = s.draws ∧ (engineTurn s).busy = false) ∧
    (∀ key, p = .ks key → (engineTurn s).data = s.data ∧ (engineTurn s).res = s.res ∧ (engineTurn s).x = s.x ∧
      ∀ r, r ≠ .status → (∀ n, r ≠ .rk n) → regValue r (engineTurn s) = regValue r s) ∧
    (∀ block, p = .enc block ∨ p = .dec block → (engineTurn s).rk = s.rk ∧ (engineTurn s).k = s.k ∧
      (engineTurn s).keyValid = s.keyValid ∧ (engineTurn s).res = s.res ∧
      ∀ r, r ≠ .status → (∀ n, r ≠ .data n) → regValue r (engineTurn s) = regValue r s) ∧
    (∀ a, p = .t a ∨ p = .tp a → (engineTurn s).rk = s.rk ∧ (engineTurn s).k = s.k ∧ (engineTurn s).x = s.x ∧
      (engineTurn s).keyValid = s.keyValid ∧ (engineTurn s).data = s.data ∧
      ∀ r, r ≠ .status → r ≠ .res → regValue r (engineTurn s) = regValue r s)

/-! ### Whole-machine rules -/

/-- R23: BUSY changes only by acceptance, completion and reset, which set and clear it; a `STATUS` write does not. -/
def Obligations.BusyChangesOnlySo : Prop :=
  ∀ s u : State, step s = .next u →
    (s.busy = false → u.busy = true → ∃ c, Accepts s c) ∧
    (s.busy = true → u.busy = false → (∃ p, Completes s p) ∨ Resets s) ∧
    (∀ c, Accepts s c → u.busy = true) ∧ (∀ p, Completes s p → u.busy = false) ∧ (Resets s → u.busy = false) ∧
    ∀ v, HostWrites s .status v → u.busy = s.busy

/-- R24: KEY_VALID changes only by acceptance of SM4.KS, its completion, and reset; a rejected SM4.KS leaves it. -/
def Obligations.KeyValidChangesOnlySo : Prop :=
  ∀ s u : State, step s = .next u →
    (s.keyValid = true → u.keyValid = false → (∃ c, Accepts s c ∧ decode c = .ok (.ks 16)) ∨ Resets s) ∧
    (s.keyValid = false → u.keyValid = true → ∃ key, Completes s (.ks key)) ∧
    (∀ c len, Accepts s c → decode c = .ok (.ks len) → u.keyValid = false) ∧
    (∀ key, Completes s (.ks key) → u.keyValid = true) ∧ (Resets s → u.keyValid = false) ∧
    (∀ c len code, Rejects s c code → decode c = .ok (.ks len) → u.keyValid = s.keyValid)

/-- R25: OVERRUN is set by a write to a register other than `STATUS` while BUSY = 1, cleared by a `STATUS` write with bit
2 = 1 whether BUSY is 0 or 1, and by reset; bit 2 = 0 leaves it; nothing else changes it. -/
def Obligations.OverrunChangesOnlySo : Prop :=
  ∀ s u : State, step s = .next u →
    (∀ r v, HostWrites s r v → r ≠ .status → s.busy = true → u.overrun = true) ∧
    (∀ v, HostWrites s .status v → u.overrun = if v.getLsbD 2 then false else s.overrun) ∧
    (Resets s → u.overrun = false) ∧
    (u.overrun ≠ s.overrun →
      (∃ r v, HostWrites s r v ∧ r ≠ .status ∧ s.busy = true) ∨
      (∃ v, HostWrites s .status v ∧ v.getLsbD 2 = true) ∨ Resets s)

/-- R26: ERR is set to 0 by acceptance and reset, to the rejection code by rejection, and changes in no other way; codes
5 to 15 are never written. -/
def Obligations.ErrChangesOnlySo : Prop :=
  ∀ s u : State, step s = .next u →
    (∀ c, Accepts s c → u.err = .noError) ∧ (∀ c code, Rejects s c code → u.err = code) ∧
    (∀ c, HostWrites s .cmd c → s.busy = true → u.err = s.err) ∧
    (∀ p, Completes s p → u.err = s.err ∧ (EngineInv s → u.err = .noError)) ∧ (Resets s → u.err = .noError) ∧
    (u.err ≠ s.err → (∃ c, Accepts s c) ∨ (∃ c code, Rejects s c code) ∨ Resets s) ∧
    errCode u.err ≤ 4#4

/-- R27, R28, R51: a host read of `DATA[n]` returns block word n unless an SM4.ENC or SM4.DEC is in flight; a host write
while BUSY = 0 sets its own word of `KEY` or `DATA` alone; `KEY` changes only by such a write and by reset; `DATA` by those
and by the completion of SM4.ENC or SM4.DEC. -/
def Obligations.KeyAndDataChangeOnlySo : Prop :=
  (∀ (s : State) (t : Nat), (∀ block, s.pend ≠ some (.enc block)) → (∀ block, s.pend ≠ some (.dec block)) →
    busRead 0x20#8 4 t s = .next (setVar t s.data.w0 s) ∧ busRead 0x24#8 4 t s = .next (setVar t s.data.w1 s) ∧
    busRead 0x28#8 4 t s = .next (setVar t s.data.w2 s) ∧ busRead 0x2C#8 4 t s = .next (setVar t s.data.w3 s)) ∧
  (∀ (s : State) (v : Word), s.busy = false →
    busWrite 0x10#8 4 v s = .next { s with key := { s.key with w0 := v } } ∧
    busWrite 0x14#8 4 v s = .next { s with key := { s.key with w1 := v } } ∧
    busWrite 0x18#8 4 v s = .next { s with key := { s.key with w2 := v } } ∧
    busWrite 0x1C#8 4 v s = .next { s with key := { s.key with w3 := v } } ∧
    busWrite 0x20#8 4 v s = .next { s with data := { s.data with w0 := v } } ∧
    busWrite 0x24#8 4 v s = .next { s with data := { s.data with w1 := v } } ∧
    busWrite 0x28#8 4 v s = .next { s with data := { s.data with w2 := v } } ∧
    busWrite 0x2C#8 4 v s = .next { s with data := { s.data with w3 := v } }) ∧
  ∀ s u : State, step s = .next u →
    (∀ n v, HostWrites s (.key n) v → s.busy = false → u.key = quadSet s.key n v) ∧
    (u.key ≠ s.key → (∃ n v, HostWrites s (.key n) v ∧ s.busy = false) ∨ Resets s) ∧
    (∀ n v, HostWrites s (.data n) v → s.busy = false → u.data = quadSet s.data n v) ∧
    (u.data ≠ s.data → (∃ n v, HostWrites s (.data n) v ∧ s.busy = false) ∨
      (∃ block, Completes s (.enc block) ∨ Completes s (.dec block)) ∨ Resets s)

/-- R29: `ARG` is read and written by the host, and changes only by a host write while BUSY = 0 and by reset. -/
def Obligations.ArgChangesOnlySo : Prop :=
  (∀ (s : State) (t : Nat) (v : Word), busRead 0x30#8 4 t s = .next (setVar t s.arg s) ∧
    (s.busy = false → busWrite 0x30#8 4 v s = .next { s with arg := v }) ∧
    (s.busy = false → exec .t s = .next { s with pend := some (.t s.arg), err := .noError } ∧
      exec .tp s = .next { s with pend := some (.tp s.arg), err := .noError })) ∧
  ∀ s u : State, step s = .next u →
    (u.arg ≠ s.arg → (∃ v, HostWrites s .arg v ∧ s.busy = false) ∨ Resets s) ∧ (Resets s → u.arg = 0#32)

/-- R30: `RES` is written by the completion of SM4.T or SM4.TP, and by nothing else but reset; a host write to it while
BUSY = 0 is ignored; a host read of it returns it unless an SM4.T or SM4.TP is in flight. -/
def Obligations.ResChangesOnlySo : Prop :=
  (∀ (s : State) (t : Nat), (∀ a, s.pend ≠ some (.t a)) → (∀ a, s.pend ≠ some (.tp a)) →
    busRead 0x34#8 4 t s = .next (setVar t s.res s)) ∧
  (∀ (s : State) (v : Word), s.busy = false → busWrite 0x34#8 4 v s = .next s) ∧
  ∀ s u : State, step s = .next u →
    (∀ a, Completes s (.t a) → u.res = roundT a) ∧ (∀ a, Completes s (.tp a) → u.res = roundTp a) ∧
    (u.res ≠ s.res → (∃ a, Completes s (.t a) ∨ Completes s (.tp a)) ∨ Resets s)

/-- R33: the only writer of `RK` is the completion of SM4.KS, which writes all 32 words in one step. Reset, after which
the file's contents are unspecified, is the exception (log 5). -/
def Obligations.OnlyKsCompletionWritesRoundKeys : Prop :=
  ∀ s u : State, step s = .next u →
    (∀ key, Completes s (.ks key) → ∀ n, rkWord u.rk n = rkWord (keySchedule key) n) ∧
    (u.rk ≠ s.rk → (∃ key, Completes s (.ks key)) ∨ Resets s)

/-- R36, R24, R26, R22: every step keeps the invariant: the snapshot equals the live operand registers, KEY_VALID is 0
during SM4.KS and 1 during SM4.ENC and SM4.DEC, ERR is 0 while BUSY = 1, and KEY_VALID = 1 means `RK` holds a schedule. -/
def Obligations.StepKeepsInvariant : Prop :=
  ∀ s u : State, EngineInv s → step s = .next u → EngineInv u

/-- The invariant holds at reset. -/
def Obligations.InvariantHoldsAtReset : Prop := EngineInv State.reset

/-- R234: from every busy state the machine comes to BUSY = 0 within one step more than its listed turns, unless the host
draws a BusError first. The fair default schedule after the listed turns is the model's (log 2). -/
def Obligations.BusyComesToAnEnd : Prop :=
  ∀ s : State, s.busy = true → ∃ n ≤ s.turns.length + 1,
    (∃ u, core.run n s = .next u ∧ u.busy = false) ∨ ∃ f, core.run n s = .fault f

/-- R157: decryption undoes encryption and encryption undoes decryption, under every round-key file, on the function and
on the machine: SM4.ENC, its completion, SM4.DEC, its completion give `DATA` back. -/
def Obligations.DecryptionInvertsEncryption : Prop :=
  (∀ (rk : RoundKeys) (block : Quad),
    transform .decrypt rk (transform .encrypt rk block) = block ∧
    transform .encrypt rk (transform .decrypt rk block) = block) ∧
  ∀ s : State, s.busy = false → s.keyValid = true →
    ∃ a b, exec (.enc 16) s = .next a ∧ exec (.dec 16) (engineTurn a) = .next b ∧
      (engineTurn b).data = s.data ∧ (engineTurn b).busy = false ∧ (engineTurn b).rk = s.rk

/-- R154: the indexed form of the block transform: output words are `X_35, X_34, X_33, X_32`. -/
def Obligations.BlockTransformIndexedForm : Prop :=
  ∀ (rk : RoundKeys) (block : Quad) (dir : Dir) (kw : Nat → Word) (X : Nat → Word),
    (∀ n : Fin 32, kw n.val = match dir with
      | .encrypt => rkWord rk n
      | .decrypt => rkWord rk (31 - n)) →
    (∀ n : Fin 4, X n.val = quadGet block n) →
    (∀ n < 32, X (n + 4) = X n ^^^ roundT (X (n + 1) ^^^ X (n + 2) ^^^ X (n + 3) ^^^ kw n)) →
    transform dir rk block = ⟨X 35, X 34, X 33, X 32⟩

/-- R135: the indexed form of the key schedule: `RK[n] = K_{n+4}`. -/
def Obligations.KeyScheduleIndexedForm : Prop :=
  ∀ (key : Quad) (K : Nat → Word),
    (∀ n : Fin 4, K n.val = quadGet key n ^^^ quadGet fk n) →
    (∀ n < 32, K (n + 4) = K n ^^^ roundTp (K (n + 1) ^^^ K (n + 2) ^^^ K (n + 3) ^^^ ck n)) →
    ∀ n : Fin 32, rkWord (keySchedule key) n = K (n.val + 4)

/-- R134: two SM4.KS run from equal `KEY` values give equal `RK` files, whatever came before. -/
def Obligations.ScheduleDependsOnKeyAlone : Prop :=
  ∀ s s' : State, s.busy = false → s'.busy = false → s.key = s'.key →
    ∃ a a', exec (.ks 16) s = .next a ∧ exec (.ks 16) s' = .next a' ∧ (engineTurn a).rk = (engineTurn a').rk

/-- R230: a reset, from any state, takes SM4E's state to its reset values and abandons a command in flight: its results
are never written. `RK`, `x`, `k` are not stated, their reset values being the model's (logs 5, 6). -/
def Obligations.ResetFromAnyState : Prop :=
  ∀ s : State, Resets s → ∃ u, step s = .next u ∧
    u.busy = false ∧ u.pend = none ∧ u.keyValid = false ∧ u.overrun = false ∧ u.err = .noError ∧
    u.key = ⟨0#32, 0#32, 0#32, 0#32⟩ ∧ u.data = ⟨0#32, 0#32, 0#32, 0#32⟩ ∧ u.arg = 0#32 ∧ u.res = 0#32 ∧ statusWord u = 0#32 ∧
    (∀ n, regValue (.rk n) u = 0#32) ∧ u.host = s.host

/-- R231: after reset SM4E is idle with no schedule; SM4.ENC and SM4.DEC get NO_KEY, SM4.T is accepted. -/
def Obligations.ResetIsIdleWithNoSchedule : Prop :=
  State.reset.busy = false ∧ State.reset.keyValid = false ∧
  exec (.enc 16) State.reset = .next { State.reset with err := .noKey } ∧
  exec (.dec 16) State.reset = .next { State.reset with err := .noKey } ∧
  exec .t State.reset = .next { State.reset with pend := some (.t 0#32) }

/-- A step runs the decoded command: when it is the host's turn and its instruction writes to `CMD` a word that decodes
to i, the step is exec of i, on the state with the turn taken and the host at its next instruction. And a state with a
command word placed by withFetchWord steps by exec of that command. -/
def Obligations.StepRunsTheDecodedCommand : Prop :=
  (∀ (s : State) (c : Word) (i : Instr), HostWrites s .cmd c → decode c = .ok i →
    step s = exec i (hostGoto (s.host.pc + 1) (dropTurn s))) ∧
  ∀ (s : State) (i : Instr), WellFormed i →
    step (s.withFetchWord 32 (encode i).toNat) =
      exec i { s with host := ⟨[.write 0x00#8 4 (.imm (encode i))], 1, s.host.vars⟩ }

/-- R236: a host that respects the wait rule sets no OVERRUN and reads no `any`. -/
def Obligations.WaitingHostMeetsNoHazard : Prop :=
  ∀ s u : State, WaitRule s → step s = .next u →
    (u.overrun = true → s.overrun = true) ∧ u.draws = s.draws ∧
    ∀ r t, HostReads s r t → hostVar u t = regValue r s

/-- R242: a final state with no turns listed stays as it is; a state with BUSY = 1 is not final, and with no turns listed
its next step is the completion owed. -/
def Obligations.FinalStatesRestAndBusyOnesComplete : Prop :=
  (∀ s : State, Final s → s.turns = [] → step s = .next s) ∧
  ∀ s : State, s.busy = true → ¬ Final s ∧ (s.turns = [] → ∃ u, step s = .next u ∧ u = engineTurn s ∧ u.busy = false)
end

