-- ==== Sys2Proof/Laws/Decode.lean ====
section
/-! SUPPORT. A command word is its five fields; decoding and encoding in terms of them. -/

namespace Sys2Proof

/-- A word is its fields, RZ1 the most significant (30_encoding.md R70). -/
theorem word_of_fields (c : Word) : c = fieldRz1 c ++ fieldLen c ++ fieldRz0 c ++ fieldDir c ++ fieldOp c := by
  apply BitVec.eq_of_getLsbD_eq
  intro i hi
  simp only [fieldRz1, fieldLen, fieldRz0, fieldDir, fieldOp, BitVec.getLsbD_append, BitVec.getLsbD_extractLsb']
  interval_cases i <;> simp

/-- Two words are equal exactly when their fields are. -/
theorem word_eq_iff_fields (c d : Word) : c = d ↔ fieldRz1 c = fieldRz1 d ∧ fieldLen c = fieldLen d ∧
    fieldRz0 c = fieldRz0 d ∧ fieldDir c = fieldDir d ∧ fieldOp c = fieldOp d := by
  constructor
  · rintro rfl; simp
  · rintro ⟨h1, h2, h3, h4, h5⟩
    rw [word_of_fields c, word_of_fields d, h1, h2, h3, h4, h5]

theorem fieldDir_eq_zero (c : Word) : fieldDir c = 0#1 ↔ c.getLsbD 4 = false := by
  have h : ∀ d : BitVec 1, d = 0#1 ↔ d.getLsbD 0 = false := by decide
  rw [h, fieldDir, BitVec.getLsbD_extractLsb']
  simp

theorem fieldDir_cases (c : Word) : fieldDir c = 0#1 ∨ fieldDir c = 1#1 := by
  have h : ∀ d : BitVec 1, d = 0#1 ∨ d = 1#1 := by decide
  exact h _

/-- `c &&& 0xFFFF00FF` drops LEN and keeps the other fields. -/
theorem mask_drops_len (c p : Word) (hp : fieldLen p = 0#8) : c &&& 0xFFFF00FF#32 = p ↔
    fieldRz1 c = fieldRz1 p ∧ fieldRz0 c = fieldRz0 p ∧ fieldDir c = fieldDir p ∧ fieldOp c = fieldOp p := by
  have e1 : fieldRz1 (c &&& 0xFFFF00FF#32) = fieldRz1 c := by
    rw [fieldRz1, BitVec.extractLsb'_and]; exact BitVec.and_allOnes
  have e2 : fieldLen (c &&& 0xFFFF00FF#32) = 0#8 := by
    rw [fieldLen, BitVec.extractLsb'_and]; exact BitVec.and_zero
  have e3 : fieldRz0 (c &&& 0xFFFF00FF#32) = fieldRz0 c := by
    rw [fieldRz0, BitVec.extractLsb'_and]; exact BitVec.and_allOnes
  have e4 : fieldDir (c &&& 0xFFFF00FF#32) = fieldDir c := by
    rw [fieldDir, BitVec.extractLsb'_and]; exact BitVec.and_allOnes
  have e5 : fieldOp (c &&& 0xFFFF00FF#32) = fieldOp c := by
    rw [fieldOp, BitVec.extractLsb'_and]; exact BitVec.and_allOnes
  rw [word_eq_iff_fields, e1, e2, e3, e4, e5, hp]
  simp

/-- The fields of a command with a LEN, as encoded. -/
theorem lenWord_fields (p : Word) (h1 : fieldLen p = 0#8) (l : BitVec 8) :
    fieldRz1 (p ||| BitVec.ofNat 32 l.toNat <<< 8) = fieldRz1 p ∧
    fieldLen (p ||| BitVec.ofNat 32 l.toNat <<< 8) = l ∧
    fieldRz0 (p ||| BitVec.ofNat 32 l.toNat <<< 8) = fieldRz0 p ∧
    fieldDir (p ||| BitVec.ofNat 32 l.toNat <<< 8) = fieldDir p ∧
    fieldOp (p ||| BitVec.ofNat 32 l.toNat <<< 8) = fieldOp p := by
  have f : ∀ l : BitVec 8, fieldRz1 (BitVec.ofNat 32 l.toNat <<< 8) = 0#16 ∧ fieldLen (BitVec.ofNat 32 l.toNat <<< 8) = l ∧
      fieldRz0 (BitVec.ofNat 32 l.toNat <<< 8) = 0#3 ∧ fieldDir (BitVec.ofNat 32 l.toNat <<< 8) = 0#1 ∧
      fieldOp (BitVec.ofNat 32 l.toNat <<< 8) = 0#4 := by decide
  obtain ⟨f1, f2, f3, f4, f5⟩ := f l
  simp only [fieldRz1, fieldLen, fieldRz0, fieldDir, fieldOp, BitVec.extractLsb'_or] at *
  simp_all

theorem decode_eq_ks (c : Word) (n : Nat) : decode c = .ok (.ks n) ↔
    (fieldRz1 c = 0#16 ∧ fieldRz0 c = 0#3 ∧ fieldDir c = 0#1 ∧ fieldOp c = 1#4) ∧ n = (fieldLen c).toNat := by
  constructor
  · intro h
    unfold decode at h
    repeat' split at h
    all_goals simp_all
  · rintro ⟨⟨h1, h0, hd, ho⟩, rfl⟩
    simp [decode, h1, h0, hd, ho]

theorem decode_eq_enc (c : Word) (n : Nat) : decode c = .ok (.enc n) ↔
    (fieldRz1 c = 0#16 ∧ fieldRz0 c = 0#3 ∧ fieldDir c = 0#1 ∧ fieldOp c = 2#4) ∧ n = (fieldLen c).toNat := by
  constructor
  · intro h
    unfold decode at h
    repeat' split at h
    all_goals simp_all
  · rintro ⟨⟨h1, h0, hd, ho⟩, rfl⟩
    simp [decode, h1, h0, hd, ho]

theorem decode_eq_dec (c : Word) (n : Nat) : decode c = .ok (.dec n) ↔
    (fieldRz1 c = 0#16 ∧ fieldRz0 c = 0#3 ∧ fieldDir c = 1#1 ∧ fieldOp c = 2#4) ∧ n = (fieldLen c).toNat := by
  have := fieldDir_cases c
  constructor
  · intro h
    unfold decode at h
    repeat' split at h
    all_goals simp_all
  · rintro ⟨⟨h1, h0, hd, ho⟩, rfl⟩
    simp [decode, h1, h0, hd, ho]

theorem decode_eq_t (c : Word) : decode c = .ok .t ↔
    (fieldRz1 c = 0#16 ∧ fieldRz0 c = 0#3 ∧ fieldDir c = 0#1 ∧ fieldOp c = 3#4) ∧ fieldLen c = 0#8 := by
  constructor
  · intro h
    unfold decode at h
    repeat' split at h
    all_goals simp_all
  · rintro ⟨⟨h1, h0, hd, ho⟩, hl⟩
    simp [decode, h1, h0, hd, ho, hl]

theorem decode_eq_tp (c : Word) : decode c = .ok .tp ↔
    (fieldRz1 c = 0#16 ∧ fieldRz0 c = 0#3 ∧ fieldDir c = 0#1 ∧ fieldOp c = 4#4) ∧ fieldLen c = 0#8 := by
  constructor
  · intro h
    unfold decode at h
    repeat' split at h
    all_goals simp_all
  · rintro ⟨⟨h1, h0, hd, ho⟩, hl⟩
    simp [decode, h1, h0, hd, ho, hl]

end Sys2Proof
end

