-- ==== Sys2Proof/Laws/State.lean ====
section
/-! SUPPORT. The fields of a state after each named update, one lemma a field, and `BUSY` after each. -/

namespace Sys2Proof.Machine

@[simp] theorem raiseCmdError_keyValid (e : Err) (s : State) : (raiseCmdError e s).keyValid = s.keyValid := rfl
@[simp] theorem raiseCmdError_overrun (e : Err) (s : State) : (raiseCmdError e s).overrun = s.overrun := rfl
@[simp] theorem raiseCmdError_err (e : Err) (s : State) : (raiseCmdError e s).err = e := rfl
@[simp] theorem raiseCmdError_key (e : Err) (s : State) : (raiseCmdError e s).key = s.key := rfl
@[simp] theorem raiseCmdError_data (e : Err) (s : State) : (raiseCmdError e s).data = s.data := rfl
@[simp] theorem raiseCmdError_arg (e : Err) (s : State) : (raiseCmdError e s).arg = s.arg := rfl
@[simp] theorem raiseCmdError_res (e : Err) (s : State) : (raiseCmdError e s).res = s.res := rfl
@[simp] theorem raiseCmdError_rk (e : Err) (s : State) : (raiseCmdError e s).rk = s.rk := rfl
@[simp] theorem raiseCmdError_x (e : Err) (s : State) : (raiseCmdError e s).x = s.x := rfl
@[simp] theorem raiseCmdError_k (e : Err) (s : State) : (raiseCmdError e s).k = s.k := rfl
@[simp] theorem raiseCmdError_pend (e : Err) (s : State) : (raiseCmdError e s).pend = s.pend := rfl
@[simp] theorem raiseCmdError_host (e : Err) (s : State) : (raiseCmdError e s).host = s.host := rfl
@[simp] theorem raiseCmdError_turns (e : Err) (s : State) : (raiseCmdError e s).turns = s.turns := rfl
@[simp] theorem raiseCmdError_draws (e : Err) (s : State) : (raiseCmdError e s).draws = s.draws := rfl
@[simp] theorem raiseCmdError_busy (e : Err) (s : State) : (raiseCmdError e s).busy = s.busy := rfl

@[simp] theorem dropWrite_keyValid (s : State) : (dropWrite s).keyValid = s.keyValid := rfl
@[simp] theorem dropWrite_overrun (s : State) : (dropWrite s).overrun = true := rfl
@[simp] theorem dropWrite_err (s : State) : (dropWrite s).err = s.err := rfl
@[simp] theorem dropWrite_key (s : State) : (dropWrite s).key = s.key := rfl
@[simp] theorem dropWrite_data (s : State) : (dropWrite s).data = s.data := rfl
@[simp] theorem dropWrite_arg (s : State) : (dropWrite s).arg = s.arg := rfl
@[simp] theorem dropWrite_res (s : State) : (dropWrite s).res = s.res := rfl
@[simp] theorem dropWrite_rk (s : State) : (dropWrite s).rk = s.rk := rfl
@[simp] theorem dropWrite_x (s : State) : (dropWrite s).x = s.x := rfl
@[simp] theorem dropWrite_k (s : State) : (dropWrite s).k = s.k := rfl
@[simp] theorem dropWrite_pend (s : State) : (dropWrite s).pend = s.pend := rfl
@[simp] theorem dropWrite_host (s : State) : (dropWrite s).host = s.host := rfl
@[simp] theorem dropWrite_turns (s : State) : (dropWrite s).turns = s.turns := rfl
@[simp] theorem dropWrite_draws (s : State) : (dropWrite s).draws = s.draws := rfl
@[simp] theorem dropWrite_busy (s : State) : (dropWrite s).busy = s.busy := rfl

@[simp] theorem accept_keyValid (p : Pending) (s : State) : (accept p s).keyValid = s.keyValid := rfl
@[simp] theorem accept_overrun (p : Pending) (s : State) : (accept p s).overrun = s.overrun := rfl
@[simp] theorem accept_err (p : Pending) (s : State) : (accept p s).err = .noError := rfl
@[simp] theorem accept_key (p : Pending) (s : State) : (accept p s).key = s.key := rfl
@[simp] theorem accept_data (p : Pending) (s : State) : (accept p s).data = s.data := rfl
@[simp] theorem accept_arg (p : Pending) (s : State) : (accept p s).arg = s.arg := rfl
@[simp] theorem accept_res (p : Pending) (s : State) : (accept p s).res = s.res := rfl
@[simp] theorem accept_rk (p : Pending) (s : State) : (accept p s).rk = s.rk := rfl
@[simp] theorem accept_x (p : Pending) (s : State) : (accept p s).x = s.x := rfl
@[simp] theorem accept_k (p : Pending) (s : State) : (accept p s).k = s.k := rfl
@[simp] theorem accept_pend (p : Pending) (s : State) : (accept p s).pend = some p := rfl
@[simp] theorem accept_host (p : Pending) (s : State) : (accept p s).host = s.host := rfl
@[simp] theorem accept_turns (p : Pending) (s : State) : (accept p s).turns = s.turns := rfl
@[simp] theorem accept_draws (p : Pending) (s : State) : (accept p s).draws = s.draws := rfl
@[simp] theorem accept_busy (p : Pending) (s : State) : (accept p s).busy = true := rfl

@[simp] theorem retire_keyValid (s : State) : (retire s).keyValid = s.keyValid := rfl
@[simp] theorem retire_overrun (s : State) : (retire s).overrun = s.overrun := rfl
@[simp] theorem retire_err (s : State) : (retire s).err = s.err := rfl
@[simp] theorem retire_key (s : State) : (retire s).key = s.key := rfl
@[simp] theorem retire_data (s : State) : (retire s).data = s.data := rfl
@[simp] theorem retire_arg (s : State) : (retire s).arg = s.arg := rfl
@[simp] theorem retire_res (s : State) : (retire s).res = s.res := rfl
@[simp] theorem retire_rk (s : State) : (retire s).rk = s.rk := rfl
@[simp] theorem retire_x (s : State) : (retire s).x = s.x := rfl
@[simp] theorem retire_k (s : State) : (retire s).k = s.k := rfl
@[simp] theorem retire_pend (s : State) : (retire s).pend = none := rfl
@[simp] theorem retire_host (s : State) : (retire s).host = s.host := rfl
@[simp] theorem retire_turns (s : State) : (retire s).turns = s.turns := rfl
@[simp] theorem retire_draws (s : State) : (retire s).draws = s.draws := rfl
@[simp] theorem retire_busy (s : State) : (retire s).busy = false := rfl

@[simp] theorem writeStatus_keyValid (v : Word) (s : State) : (writeStatus v s).keyValid = s.keyValid := rfl
@[simp] theorem writeStatus_overrun (v : Word) (s : State) : (writeStatus v s).overrun = if v.getLsbD 2 then false else s.overrun := rfl
@[simp] theorem writeStatus_err (v : Word) (s : State) : (writeStatus v s).err = s.err := rfl
@[simp] theorem writeStatus_key (v : Word) (s : State) : (writeStatus v s).key = s.key := rfl
@[simp] theorem writeStatus_data (v : Word) (s : State) : (writeStatus v s).data = s.data := rfl
@[simp] theorem writeStatus_arg (v : Word) (s : State) : (writeStatus v s).arg = s.arg := rfl
@[simp] theorem writeStatus_res (v : Word) (s : State) : (writeStatus v s).res = s.res := rfl
@[simp] theorem writeStatus_rk (v : Word) (s : State) : (writeStatus v s).rk = s.rk := rfl
@[simp] theorem writeStatus_x (v : Word) (s : State) : (writeStatus v s).x = s.x := rfl
@[simp] theorem writeStatus_k (v : Word) (s : State) : (writeStatus v s).k = s.k := rfl
@[simp] theorem writeStatus_pend (v : Word) (s : State) : (writeStatus v s).pend = s.pend := rfl
@[simp] theorem writeStatus_host (v : Word) (s : State) : (writeStatus v s).host = s.host := rfl
@[simp] theorem writeStatus_turns (v : Word) (s : State) : (writeStatus v s).turns = s.turns := rfl
@[simp] theorem writeStatus_draws (v : Word) (s : State) : (writeStatus v s).draws = s.draws := rfl
@[simp] theorem writeStatus_busy (v : Word) (s : State) : (writeStatus v s).busy = s.busy := rfl

@[simp] theorem dropTurn_keyValid (s : State) : (dropTurn s).keyValid = s.keyValid := rfl
@[simp] theorem dropTurn_overrun (s : State) : (dropTurn s).overrun = s.overrun := rfl
@[simp] theorem dropTurn_err (s : State) : (dropTurn s).err = s.err := rfl
@[simp] theorem dropTurn_key (s : State) : (dropTurn s).key = s.key := rfl
@[simp] theorem dropTurn_data (s : State) : (dropTurn s).data = s.data := rfl
@[simp] theorem dropTurn_arg (s : State) : (dropTurn s).arg = s.arg := rfl
@[simp] theorem dropTurn_res (s : State) : (dropTurn s).res = s.res := rfl
@[simp] theorem dropTurn_rk (s : State) : (dropTurn s).rk = s.rk := rfl
@[simp] theorem dropTurn_x (s : State) : (dropTurn s).x = s.x := rfl
@[simp] theorem dropTurn_k (s : State) : (dropTurn s).k = s.k := rfl
@[simp] theorem dropTurn_pend (s : State) : (dropTurn s).pend = s.pend := rfl
@[simp] theorem dropTurn_host (s : State) : (dropTurn s).host = s.host := rfl
@[simp] theorem dropTurn_turns (s : State) : (dropTurn s).turns = s.turns.tail := rfl
@[simp] theorem dropTurn_draws (s : State) : (dropTurn s).draws = s.draws := rfl
@[simp] theorem dropTurn_busy (s : State) : (dropTurn s).busy = s.busy := rfl

@[simp] theorem hostGoto_keyValid (n : Nat) (s : State) : (hostGoto n s).keyValid = s.keyValid := rfl
@[simp] theorem hostGoto_overrun (n : Nat) (s : State) : (hostGoto n s).overrun = s.overrun := rfl
@[simp] theorem hostGoto_err (n : Nat) (s : State) : (hostGoto n s).err = s.err := rfl
@[simp] theorem hostGoto_key (n : Nat) (s : State) : (hostGoto n s).key = s.key := rfl
@[simp] theorem hostGoto_data (n : Nat) (s : State) : (hostGoto n s).data = s.data := rfl
@[simp] theorem hostGoto_arg (n : Nat) (s : State) : (hostGoto n s).arg = s.arg := rfl
@[simp] theorem hostGoto_res (n : Nat) (s : State) : (hostGoto n s).res = s.res := rfl
@[simp] theorem hostGoto_rk (n : Nat) (s : State) : (hostGoto n s).rk = s.rk := rfl
@[simp] theorem hostGoto_x (n : Nat) (s : State) : (hostGoto n s).x = s.x := rfl
@[simp] theorem hostGoto_k (n : Nat) (s : State) : (hostGoto n s).k = s.k := rfl
@[simp] theorem hostGoto_pend (n : Nat) (s : State) : (hostGoto n s).pend = s.pend := rfl
@[simp] theorem hostGoto_host (n : Nat) (s : State) : (hostGoto n s).host = { s.host with pc := n } := rfl
@[simp] theorem hostGoto_turns (n : Nat) (s : State) : (hostGoto n s).turns = s.turns := rfl
@[simp] theorem hostGoto_draws (n : Nat) (s : State) : (hostGoto n s).draws = s.draws := rfl
@[simp] theorem hostGoto_busy (n : Nat) (s : State) : (hostGoto n s).busy = s.busy := rfl

@[simp] theorem setVar_keyValid (h : Nat) (v : Word) (s : State) : (setVar h v s).keyValid = s.keyValid := rfl
@[simp] theorem setVar_overrun (h : Nat) (v : Word) (s : State) : (setVar h v s).overrun = s.overrun := rfl
@[simp] theorem setVar_err (h : Nat) (v : Word) (s : State) : (setVar h v s).err = s.err := rfl
@[simp] theorem setVar_key (h : Nat) (v : Word) (s : State) : (setVar h v s).key = s.key := rfl
@[simp] theorem setVar_data (h : Nat) (v : Word) (s : State) : (setVar h v s).data = s.data := rfl
@[simp] theorem setVar_arg (h : Nat) (v : Word) (s : State) : (setVar h v s).arg = s.arg := rfl
@[simp] theorem setVar_res (h : Nat) (v : Word) (s : State) : (setVar h v s).res = s.res := rfl
@[simp] theorem setVar_rk (h : Nat) (v : Word) (s : State) : (setVar h v s).rk = s.rk := rfl
@[simp] theorem setVar_x (h : Nat) (v : Word) (s : State) : (setVar h v s).x = s.x := rfl
@[simp] theorem setVar_k (h : Nat) (v : Word) (s : State) : (setVar h v s).k = s.k := rfl
@[simp] theorem setVar_pend (h : Nat) (v : Word) (s : State) : (setVar h v s).pend = s.pend := rfl
@[simp] theorem setVar_host (h : Nat) (v : Word) (s : State) : (setVar h v s).host = { s.host with vars := storeVar s.host.vars h v } := rfl
@[simp] theorem setVar_turns (h : Nat) (v : Word) (s : State) : (setVar h v s).turns = s.turns := rfl
@[simp] theorem setVar_draws (h : Nat) (v : Word) (s : State) : (setVar h v s).draws = s.draws := rfl
@[simp] theorem setVar_busy (h : Nat) (v : Word) (s : State) : (setVar h v s).busy = s.busy := rfl

@[simp] theorem resetTurn_host (s : State) : (resetTurn s).host = s.host := rfl
@[simp] theorem resetTurn_turns (s : State) : (resetTurn s).turns = s.turns := rfl
@[simp] theorem resetTurn_draws (s : State) : (resetTurn s).draws = s.draws := rfl
@[simp] theorem resetTurn_keyValid (s : State) : (resetTurn s).keyValid = State.reset.keyValid := rfl
@[simp] theorem resetTurn_overrun (s : State) : (resetTurn s).overrun = State.reset.overrun := rfl
@[simp] theorem resetTurn_err (s : State) : (resetTurn s).err = State.reset.err := rfl
@[simp] theorem resetTurn_key (s : State) : (resetTurn s).key = State.reset.key := rfl
@[simp] theorem resetTurn_data (s : State) : (resetTurn s).data = State.reset.data := rfl
@[simp] theorem resetTurn_arg (s : State) : (resetTurn s).arg = State.reset.arg := rfl
@[simp] theorem resetTurn_res (s : State) : (resetTurn s).res = State.reset.res := rfl
@[simp] theorem resetTurn_rk (s : State) : (resetTurn s).rk = State.reset.rk := rfl
@[simp] theorem resetTurn_x (s : State) : (resetTurn s).x = State.reset.x := rfl
@[simp] theorem resetTurn_k (s : State) : (resetTurn s).k = State.reset.k := rfl
@[simp] theorem resetTurn_pend (s : State) : (resetTurn s).pend = State.reset.pend := rfl
@[simp] theorem resetTurn_busy (s : State) : (resetTurn s).busy = false := rfl

@[simp] theorem reset_keyValid : State.reset.keyValid = false := rfl
@[simp] theorem reset_overrun : State.reset.overrun = false := rfl
@[simp] theorem reset_err : State.reset.err = .noError := rfl
@[simp] theorem reset_pend : State.reset.pend = none := rfl
@[simp] theorem reset_busy : State.reset.busy = false := rfl

theorem busy_eq_true (s : State) : s.busy = true ↔ ∃ p, s.pend = some p := Option.isSome_iff_exists

theorem busy_eq_false (s : State) : s.busy = false ↔ s.pend = none := by simp [State.busy]

end Sys2Proof.Machine
end

