-- ==== Sys2Proof/Laws/Window.lean ====
section
/-! SUPPORT. The register map: which offsets reach a register (20_memory.md R51 to R54). -/

namespace Sys2Proof.Machine

/-- Offsets of R51 that no register has. -/
theorem regAtWord_eq_none (n : Nat) : regAtWord n = none ↔ n = 2 ∨ n = 3 ∨ (14 ≤ n ∧ n ≤ 31) := by
  unfold regAtWord
  repeat' split
  all_goals simp; omega

theorem busTarget_width {off : BitVec 8} {width : Nat} {r : Reg} (h : busTarget off width = some r) :
    width = 4 ∧ off.toNat % 4 = 0 := by
  unfold busTarget at h
  split at h
  · assumption
  · cases h

@[simp] theorem busTarget_off (r : Reg) : busTarget r.off 4 = some r := by
  cases r with
  | key n => fin_cases n <;> rfl
  | data n => fin_cases n <;> rfl
  | rk n => fin_cases n <;> rfl
  | cmd => rfl
  | status => rfl
  | arg => rfl
  | res => rfl

/-- An access to register `r` is one at `off(r)`. -/
theorem off_of_busTarget : ∀ (off : BitVec 8) (r : Reg), busTarget off 4 = some r → r.off = off := by
  have h : ∀ off : BitVec 8, ∀ r ∈ busTarget off 4, r.off = off := by decide
  exact fun off r hr => h off r hr

@[simp] theorem busWrite_off (r : Reg) (v : Word) (s : State) : busWrite r.off 4 v s = writeReg r v s := by
  simp [busWrite]

@[simp] theorem busRead_off (r : Reg) (t : Nat) (s : State) :
    busRead r.off 4 t s = .next (setVar t (readReg r s) (afterRead r s)) := by
  simp [busRead]

/-- A `CMD` write while BUSY = 0 is an issue (60_exceptions.md R200). -/
theorem writeReg_cmd_idle {v : Word} {s : State} (h : s.busy = false) : writeReg .cmd v s = issueCommand v s := by
  simp [writeReg, writeIdle, h]

theorem writeReg_busy {r : Reg} {v : Word} {s : State} (hr : r ≠ .status) (h : s.busy = true) :
    writeReg r v s = .next (dropWrite s) := by
  simp [writeReg, hr, h]

/-! Only `DATA` and `RES` can be open to a read (10_state.md R31). -/

@[simp] theorem readOpen_cmd (s : State) : readOpen .cmd s = false := by
  unfold readOpen
  split
  · next p _ => cases p <;> rfl
  · rfl

@[simp] theorem readOpen_status (s : State) : readOpen .status s = false := by
  unfold readOpen
  split
  · next p _ => cases p <;> rfl
  · rfl

@[simp] theorem readOpen_key (n : Fin 4) (s : State) : readOpen (.key n) s = false := by
  unfold readOpen
  split
  · next p _ => cases p <;> rfl
  · rfl

@[simp] theorem readOpen_arg (s : State) : readOpen .arg s = false := by
  unfold readOpen
  split
  · next p _ => cases p <;> rfl
  · rfl

@[simp] theorem readOpen_rk (n : Fin 32) (s : State) : readOpen (.rk n) s = false := by
  unfold readOpen
  split
  · next p _ => cases p <;> rfl
  · rfl

theorem readReg_of_closed {r : Reg} {s : State} (h : readOpen r s = false) : readReg r s = regValue r s := by
  simp [readReg, h]

theorem afterRead_of_closed {r : Reg} {s : State} (h : readOpen r s = false) : afterRead r s = s := by
  simp [afterRead, h]

end Sys2Proof.Machine
end

