-- ==== Sys2Proof/Laws/Ops.lean ====
section
/-! SUPPORT. What each shared operation can do, said once: an issue, a command, a bus access, a turn, a step. -/

namespace Sys2Proof.Machine

@[simp] theorem hostAdvance_eq (s : State) : hostAdvance s = hostGoto (s.host.pc + 1) s := rfl

/-- Everything an issue can do. -/
theorem issue_cases {check : Option Err} {acc s t : State} (h : issue check acc s = .next t) :
    (s.busy = true ∧ t = dropWrite s) ∨
    (s.busy = false ∧ ∃ code, check = some code ∧ t = raiseCmdError code s) ∨
    (s.busy = false ∧ check = none ∧ t = acc) := by
  unfold issue at h
  cases hb : s.busy <;> cases check <;> simp_all

theorem issue_busy {check : Option Err} {acc s : State} (h : s.busy = true) :
    issue check acc s = .next (dropWrite s) := by simp [issue, h]

theorem issue_rejects {acc s : State} (code : Err) (h : s.busy = false) :
    issue (some code) acc s = .next (raiseCmdError code s) := by simp [issue, h]

theorem issue_accepts {acc s : State} (h : s.busy = false) : issue none acc s = .next acc := by simp [issue, h]

/-- The state an accepted command leaves (70_reset_and_hazards.md R232). -/
def acceptedState (i : Instr) (s : State) : State :=
  match i with
  | .ks _ => accept (.ks s.key) { s with keyValid := false }
  | .enc _ => accept (.enc s.data) s
  | .dec _ => accept (.dec s.data) s
  | .t => accept (.t s.arg) s
  | .tp => accept (.tp s.arg) s

/-- The checks of a decoded command (60_exceptions.md R202). -/
def execCheck (i : Instr) (s : State) : Option Err :=
  match i with
  | .ks len => lengthCheck .keyLen len
  | .enc len => blockChecks len s
  | .dec len => blockChecks len s
  | .t => none
  | .tp => none

/-- Every command is one issue of its checks and its accepted state. -/
theorem exec_eq_issue (i : Instr) (s : State) : exec i s = issue (execCheck i s) (acceptedState i s) s := by
  cases i <;> rfl

theorem firstFailing_ok {c : Word} {i : Instr} (h : decode c = .ok i) (s : State) :
    firstFailing c s = execCheck i s := by
  unfold firstFailing
  rw [h]
  cases i with
  | ks len => rfl
  | enc len => by_cases hl : len = 16 <;> simp [execCheck, blockChecks, lengthCheck, keyCheck, hl]
  | dec len => by_cases hl : len = 16 <;> simp [execCheck, blockChecks, lengthCheck, keyCheck, hl]
  | t => rfl
  | tp => rfl

theorem firstFailing_illegal {c : Word} {e : Illegal} (h : decode c = .error e) (s : State) :
    firstFailing c s = some .illegalCmd := by
  unfold firstFailing
  rw [h]

/-- A `CMD` write while BUSY = 0 is rejected with the first failing check's code, or accepted
(60_exceptions.md R200). -/
theorem issueCommand_cases {c : Word} {s t : State} (hb : s.busy = false) (h : issueCommand c s = .next t) :
    (∃ code, firstFailing c s = some code ∧ t = raiseCmdError code s) ∨
    (∃ i, decode c = .ok i ∧ firstFailing c s = none ∧ t = acceptedState i s) := by
  unfold issueCommand at h
  split at h
  · next e hd => exact .inl ⟨_, firstFailing_illegal hd s, by simpa using h.symm⟩
  · next i hd =>
    rw [exec_eq_issue] at h
    rcases issue_cases h with ⟨hb', -⟩ | ⟨-, code, hc, ht⟩ | ⟨-, hc, ht⟩
    · simp [hb] at hb'
    · exact .inl ⟨code, by rw [firstFailing_ok hd, hc], ht⟩
    · exact .inr ⟨i, hd, by rw [firstFailing_ok hd, hc], ht⟩

/-- What one host bus write does to SM4E's own state. -/
inductive WriteEffect (s : State) (r : Reg) (v : Word) : State → Prop
  | status : r = .status → WriteEffect s r v (writeStatus v s)
  | dropped : r ≠ .status → s.busy = true → WriteEffect s r v (dropWrite s)
  | rejected (code : Err) : r = .cmd → s.busy = false → firstFailing v s = some code →
      WriteEffect s r v (raiseCmdError code s)
  | accepted (i : Instr) : r = .cmd → s.busy = false → decode v = .ok i → firstFailing v s = none →
      WriteEffect s r v (acceptedState i s)
  | key (n : Fin 4) : r = .key n → s.busy = false → WriteEffect s r v { s with key := quadSet s.key n v }
  | data (n : Fin 4) : r = .data n → s.busy = false → WriteEffect s r v { s with data := quadSet s.data n v }
  | arg : r = .arg → s.busy = false → WriteEffect s r v { s with arg := v }
  | ignored : (r = .res ∨ ∃ n, r = .rk n) → s.busy = false → WriteEffect s r v s

theorem writeReg_cases {r : Reg} {v : Word} {s t : State} (h : writeReg r v s = .next t) : WriteEffect s r v t := by
  unfold writeReg at h
  split at h
  · next hr => cases h; exact .status hr
  · next hr =>
    split at h
    · next hb => cases h; exact .dropped hr hb
    · next hb =>
      simp only [Bool.not_eq_true] at hb
      cases r with
      | cmd =>
        rcases issueCommand_cases hb h with ⟨code, hc, rfl⟩ | ⟨i, hd, hc, rfl⟩
        · exact .rejected code rfl hb hc
        · exact .accepted i rfl hb hd hc
      | status => exact absurd rfl hr
      | key n => cases h; exact .key n rfl hb
      | data n => cases h; exact .data n rfl hb
      | arg => cases h; exact .arg rfl hb
      | res => cases h; exact .ignored (.inl rfl) hb
      | rk n => cases h; exact .ignored (.inr ⟨n, rfl⟩) hb

/-- A register write always answers a next state. -/
theorem writeReg_answers (r : Reg) (v : Word) (s : State) : ∃ t, writeReg r v s = .next t := by
  unfold writeReg
  split
  · exact ⟨_, rfl⟩
  · split
    · exact ⟨_, rfl⟩
    · next hb =>
      simp only [Bool.not_eq_true] at hb
      cases r with
      | cmd =>
        simp only [writeIdle, issueCommand]
        split
        · exact ⟨_, rfl⟩
        · next i _ =>
          rw [exec_eq_issue]
          cases hc : execCheck i s with
          | none => exact ⟨_, issue_accepts hb⟩
          | some code => exact ⟨_, issue_rejects code hb⟩
      | status => exact ⟨_, rfl⟩
      | key n => exact ⟨_, rfl⟩
      | data n => exact ⟨_, rfl⟩
      | arg => exact ⟨_, rfl⟩
      | res => exact ⟨_, rfl⟩
      | rk n => exact ⟨_, rfl⟩

/-- A state with another host side: host agent, schedule and draws taken from `t`. SM4E's own state is `s`'s. -/
def withHostSide (s t : State) : State := { s with host := t.host, turns := t.turns, draws := t.draws }

@[simp] theorem withHostSide_pend (s t : State) : (withHostSide s t).pend = s.pend := rfl
@[simp] theorem withHostSide_busy (s t : State) : (withHostSide s t).busy = s.busy := rfl
@[simp] theorem withHostSide_keyValid (s t : State) : (withHostSide s t).keyValid = s.keyValid := rfl
@[simp] theorem withHostSide_overrun (s t : State) : (withHostSide s t).overrun = s.overrun := rfl
@[simp] theorem withHostSide_err (s t : State) : (withHostSide s t).err = s.err := rfl
@[simp] theorem withHostSide_key (s t : State) : (withHostSide s t).key = s.key := rfl
@[simp] theorem withHostSide_data (s t : State) : (withHostSide s t).data = s.data := rfl
@[simp] theorem withHostSide_arg (s t : State) : (withHostSide s t).arg = s.arg := rfl
@[simp] theorem withHostSide_res (s t : State) : (withHostSide s t).res = s.res := rfl
@[simp] theorem withHostSide_rk (s t : State) : (withHostSide s t).rk = s.rk := rfl
@[simp] theorem withHostSide_x (s t : State) : (withHostSide s t).x = s.x := rfl
@[simp] theorem withHostSide_k (s t : State) : (withHostSide s t).k = s.k := rfl

theorem firstFailing_withHostSide (c : Word) (s t : State) :
    firstFailing c (withHostSide s t) = firstFailing c s := rfl

/-- A write's effect does not depend on the host side, and leaves it. -/
theorem writeEffect_withHostSide {r : Reg} {v : Word} {s h t : State} (e : WriteEffect (withHostSide s h) r v t) :
    ∃ u, WriteEffect s r v u ∧ t = withHostSide u h := by
  cases e with
  | status hr => exact ⟨_, .status hr, rfl⟩
  | dropped hr hb => exact ⟨_, .dropped hr hb, rfl⟩
  | rejected code hr hb hf => exact ⟨_, .rejected code hr hb hf, rfl⟩
  | accepted i hr hb hd hf => exact ⟨_, .accepted i hr hb hd hf, by cases i <;> rfl⟩
  | key n hr hb => exact ⟨_, .key n hr hb, rfl⟩
  | data n hr hb => exact ⟨_, .data n hr hb, rfl⟩
  | arg hr hb => exact ⟨_, .arg hr hb, rfl⟩
  | ignored hr hb => exact ⟨_, .ignored hr hb, rfl⟩

/-- What one step does to SM4E's own state. -/
inductive StepEffect (s : State) : State → Prop
  | quiet : nextTurn s = .host → (∀ r v, ¬ HostWrites s r v) → StepEffect s s
  | write (r : Reg) (v : Word) (u : State) : HostWrites s r v → WriteEffect s r v u → StepEffect s u
  | complete (p : Pending) : Completes s p → StepEffect s (complete p s)
  | noCommand : nextTurn s = .engine → s.pend = none → StepEffect s s
  | reset : Resets s → StepEffect s (resetTurn s)

theorem complete_withHostSide (p : Pending) (s h : State) :
    complete p (withHostSide s h) = withHostSide (complete p s) h := by cases p <;> rfl

theorem dropTurn_eq (s : State) : dropTurn s = withHostSide s (dropTurn s) := rfl

/-- Everything a step can do: one of the effects on SM4E's own state, and whatever on the host side. -/
theorem step_cases {s t : State} (h : step s = .next t) : ∃ u, StepEffect s u ∧ withHostSide u t = t := by
  unfold step at h
  cases hn : nextTurn s with
  | engine =>
    rw [hn] at h
    cases hp : s.pend with
    | none =>
      simp only [takeTurn, engineTurn, dropTurn_pend, hp] at h
      cases h
      exact ⟨s, .noCommand hn hp, rfl⟩
    | some p =>
      simp only [takeTurn, engineTurn, dropTurn_pend, hp] at h
      cases h
      exact ⟨_, .complete p ⟨hn, hp⟩, by cases p <;> rfl⟩
  | reset =>
    rw [hn] at h
    cases h
    exact ⟨_, .reset hn, rfl⟩
  | host =>
    rw [hn] at h
    simp only [takeTurn, hostTurn] at h
    have hfetch : hostFetch (dropTurn s) = hostFetch s := rfl
    rw [hfetch] at h
    cases hf : hostFetch s with
    | none =>
      rw [hf] at h
      cases h
      refine ⟨s, .quiet hn ?_, rfl⟩
      rintro r v ⟨-, off, width, val, hw, -⟩
      simp [hf] at hw
    | some hi =>
      rw [hf] at h
      cases hi with
      | write off width val =>
        simp only [hostInstr, busWrite] at h
        split at h
        · cases h
        · next r hr =>
          have e := writeReg_cases h
          have hs : hostAdvance (dropTurn s) = withHostSide s (hostAdvance (dropTurn s)) := rfl
          rw [hs] at e
          obtain ⟨u, hu, ht⟩ := writeEffect_withHostSide e
          refine ⟨u, .write r _ u ⟨hn, off, width, val, hf, hr, rfl⟩ hu, ?_⟩
          rw [ht]
          rfl
      | read off width tv =>
        have hq : ∀ r v, ¬ HostWrites s r v := by
          rintro r v ⟨-, off, width, val, hw, -⟩
          simp [hf] at hw
        simp only [hostInstr, busRead] at h
        split at h
        · cases h
        · next r hr =>
          cases h
          refine ⟨s, .quiet hn hq, ?_⟩
          unfold afterRead
          split <;> rfl
      | bnz tv mask label =>
        have hq : ∀ r v, ¬ HostWrites s r v := by
          rintro r v ⟨-, off, width, val, hw, -⟩
          simp [hf] at hw
        simp only [hostInstr] at h
        cases h
        refine ⟨s, .quiet hn hq, ?_⟩
        split <;> rfl
      | set hv v =>
        have hq : ∀ r v, ¬ HostWrites s r v := by
          rintro r v ⟨-, off, width, val, hw, -⟩
          simp [hf] at hw
        cases h
        exact ⟨s, .quiet hn hq, rfl⟩
      | dec hv =>
        have hq : ∀ r v, ¬ HostWrites s r v := by
          rintro r v ⟨-, off, width, val, hw, -⟩
          simp [hf] at hw
        cases h
        exact ⟨s, .quiet hn hq, rfl⟩

theorem hostWrites_unique {s : State} {r r' : Reg} {v v' : Word} (h : HostWrites s r v) (h' : HostWrites s r' v') :
    r = r' ∧ v = v' := by
  obtain ⟨-, off, width, val, hf, hr, hv⟩ := h
  obtain ⟨-, off', width', val', hf', hr', hv'⟩ := h'
  rw [hf] at hf'
  cases hf'
  rw [hr] at hr'
  cases hr'
  exact ⟨rfl, hv.symm.trans hv'⟩

/-- What a step does that is a host write. -/
theorem step_of_hostWrites {s t : State} {r : Reg} {v : Word} (h : step s = .next t) (hw : HostWrites s r v) :
    ∃ u, WriteEffect s r v u ∧ withHostSide u t = t := by
  obtain ⟨u, e, hu⟩ := step_cases h
  cases e with
  | quiet _ hq => exact absurd hw (hq r v)
  | write r' v' u he hwe =>
    obtain ⟨rfl, rfl⟩ := hostWrites_unique hw he
    exact ⟨u, hwe, hu⟩
  | complete p hc => exact absurd (hw.1.symm.trans hc.1) (by decide)
  | noCommand hn => exact absurd (hw.1.symm.trans hn) (by decide)
  | reset hr => exact absurd (hw.1.symm.trans hr) (by decide)

/-- What a step does that is a completion. -/
theorem step_of_completes {s t : State} {p : Pending} (h : step s = .next t) (hc : Completes s p) :
    withHostSide (complete p s) t = t := by
  obtain ⟨u, e, hu⟩ := step_cases h
  cases e with
  | quiet hn => exact absurd (hn.symm.trans hc.1) (by decide)
  | write r v u he => exact absurd (he.1.symm.trans hc.1) (by decide)
  | complete q hq =>
    have hpq := hq.2.symm.trans hc.2
    cases hpq
    exact hu
  | noCommand _ hp => exact absurd (hp.symm.trans hc.2) (by simp)
  | reset hr => exact absurd (Eq.trans (Eq.symm hr) hc.1) (by decide)

/-- What a step does that is a reset. -/
theorem step_of_resets {s t : State} (h : step s = .next t) (hr : Resets s) : withHostSide (resetTurn s) t = t := by
  obtain ⟨u, e, hu⟩ := step_cases h
  cases e with
  | quiet hn => exact absurd (Eq.trans (Eq.symm hn) hr) (by decide)
  | write r v u he => exact absurd (Eq.trans (Eq.symm he.1) hr) (by decide)
  | complete p hc => exact absurd (Eq.trans (Eq.symm hc.1) hr) (by decide)
  | noCommand hn => exact absurd (Eq.trans (Eq.symm hn) hr) (by decide)
  | reset _ => exact hu

/-- A step stops only on a host access that reaches no register, and then with BusError (20_memory.md R53 to R55). -/
theorem step_stops {s : State} (h : ∀ t, step s ≠ .next t) :
    nextTurn s = .host ∧ ∃ off width, busTarget off width = none ∧ step s = .fault (.busError (busAddr off)) ∧
      ((∃ v, hostFetch s = some (.write off width v)) ∨ ∃ tv, hostFetch s = some (.read off width tv)) := by
  cases hn : nextTurn s with
  | engine => exact absurd (by simp [step, hn, takeTurn]) (h (engineTurn (dropTurn s)))
  | reset => exact absurd (by simp [step, hn, takeTurn]) (h (resetTurn (dropTurn s)))
  | host =>
    refine ⟨rfl, ?_⟩
    have hst : step s = hostTurn (dropTurn s) := by simp [step, hn, takeTurn]
    have hfetch : hostFetch (dropTurn s) = hostFetch s := rfl
    rw [hst] at h ⊢
    unfold hostTurn at h ⊢
    rw [hfetch] at h ⊢
    cases hf : hostFetch s with
    | none => rw [hf] at h; exact absurd rfl (h _)
    | some hi =>
      rw [hf] at h
      cases hi with
      | write off width val =>
        cases hr : busTarget off width with
        | none => exact ⟨off, width, hr, by simp [hostInstr, busWrite, hr, raiseBusError], .inl ⟨val, rfl⟩⟩
        | some r =>
          obtain ⟨t, ht⟩ := writeReg_answers r (hostValue (dropTurn s) val) (hostAdvance (dropTurn s))
          exact absurd (by simp only [hostInstr, busWrite, hr]; exact ht) (h t)
      | read off width tv =>
        cases hr : busTarget off width with
        | none => exact ⟨off, width, hr, by simp [hostInstr, busRead, hr, raiseBusError], .inr ⟨tv, rfl⟩⟩
        | some r =>
          have hr' : hostInstr (.read off width tv) (dropTurn s) =
              .next (setVar tv (readReg r (hostAdvance (dropTurn s))) (afterRead r (hostAdvance (dropTurn s)))) := by
            simp only [hostInstr, busRead, hr]
          exact absurd hr' (h _)
      | bnz tv mask label => exact absurd rfl (h _)
      | set hv v => exact absurd rfl (h _)
      | dec hv => exact absurd rfl (h _)

end Sys2Proof.Machine
end

