-- ==== Sys2Proof/Laws/PerInstr.lean ====
section
/-! SUPPORT. Facts about every command as syntax, one lemma per constructor (LAWS.json). -/

namespace Sys2Proof.Laws.ReservedFields

/-- The encoding of a well-formed command has RZ0 = 0 and RZ1 = 0 and an OP of 1..4 (30_encoding.md R70, R71). -/
def Statement (i : Instr) : Prop :=
  WellFormed i → fieldRz0 (encode i) = 0 ∧ fieldRz1 (encode i) = 0 ∧ fieldOp (encode i) ≠ 0 ∧ fieldOp (encode i) ≤ 4

set_option maxRecDepth 20000 in
theorem ks (len : Nat) : Statement (.ks len) := by
  have h : ∀ n : Fin 256, fieldRz0 (encode (.ks n.val)) = 0 ∧ fieldRz1 (encode (.ks n.val)) = 0 ∧
      fieldOp (encode (.ks n.val)) ≠ 0 ∧ fieldOp (encode (.ks n.val)) ≤ 4 := by decide
  exact fun hw => h ⟨len, of_decide_eq_true hw⟩

set_option maxRecDepth 20000 in
theorem enc (len : Nat) : Statement (.enc len) := by
  have h : ∀ n : Fin 256, fieldRz0 (encode (.enc n.val)) = 0 ∧ fieldRz1 (encode (.enc n.val)) = 0 ∧
      fieldOp (encode (.enc n.val)) ≠ 0 ∧ fieldOp (encode (.enc n.val)) ≤ 4 := by decide
  exact fun hw => h ⟨len, of_decide_eq_true hw⟩

set_option maxRecDepth 20000 in
theorem dec (len : Nat) : Statement (.dec len) := by
  have h : ∀ n : Fin 256, fieldRz0 (encode (.dec n.val)) = 0 ∧ fieldRz1 (encode (.dec n.val)) = 0 ∧
      fieldOp (encode (.dec n.val)) ≠ 0 ∧ fieldOp (encode (.dec n.val)) ≤ 4 := by decide
  exact fun hw => h ⟨len, of_decide_eq_true hw⟩

theorem t : Statement .t := fun _ => by decide

theorem tp : Statement .tp := fun _ => by decide

end Sys2Proof.Laws.ReservedFields
end

