-- ==== Sys2Proof/Laws/Quads.lean ====
section
/-! SUPPORT. Reading and writing words of a quad. -/

namespace Sys2Proof.Machine

theorem quad_ext {p q : Quad} (h : ∀ j, quadGet p j = quadGet q j) : p = q := by
  cases p; cases q
  have h0 := h 0; have h1 := h 1; have h2 := h 2; have h3 := h 3
  simp_all [quadGet]

@[simp] theorem quadGet_set_same (q : Quad) (j : Fin 4) (v : Word) : quadGet (quadSet q j v) j = v := by
  fin_cases j <;> rfl

theorem quadGet_set_other (q : Quad) {i j : Fin 4} (v : Word) (h : i ≠ j) :
    quadGet (quadSet q j v) i = quadGet q i := by
  fin_cases i <;> fin_cases j <;> first | rfl | exact absurd rfl h

@[simp] theorem quadReverse_reverse (q : Quad) : quadReverse (quadReverse q) = q := rfl

theorem quadGet_reverse (q : Quad) (j : Fin 4) : quadGet (quadReverse q) j = quadGet q (3 - j) := by
  fin_cases j <;> rfl

theorem quadSet_reverse (q : Quad) (j : Fin 4) (v : Word) :
    quadSet (quadReverse q) j v = quadReverse (quadSet q (3 - j) v) := by
  fin_cases j <;> rfl

end Sys2Proof.Machine
end

