-- ==== Sys2Proof/Laws/Run.lean ====
section
/-! SUPPORT. Runs of several steps, and the schedule along them. -/

namespace Sys2Proof.Machine

theorem run_of_next {s t : State} (n : Nat) (h : step s = .next t) : core.run (n + 1) s = core.run n t := by
  have h' : core.step s = .next t := h
  simp only [Host.Core.run]
  rw [h']

theorem run_of_fault {s : State} {f : Fault} (n : Nat) (h : step s = .fault f) : core.run (n + 1) s = .fault f := by
  have h' : core.step s = .fault f := h
  simp only [Host.Core.run]
  rw [h']

theorem writeEffect_turns {s u : State} {r : Reg} {v : Word} (e : WriteEffect s r v u) : u.turns = s.turns := by
  cases e with
  | accepted i => cases i <;> rfl
  | _ => rfl

/-- A step uses up one listed turn. -/
theorem step_turns {s t : State} (h : step s = .next t) : t.turns = s.turns.tail := by
  unfold step at h
  cases hn : nextTurn s with
  | engine =>
    rw [hn] at h
    cases h
    unfold engineTurn
    split
    · next p _ => cases p <;> rfl
    · rfl
  | reset =>
    rw [hn] at h
    cases h
    rfl
  | host =>
    rw [hn] at h
    simp only [takeTurn, hostTurn] at h
    split at h
    · next hi _ =>
      cases hi with
      | write off width v =>
        simp only [hostInstr, busWrite] at h
        split at h
        · cases h
        · exact writeEffect_turns (writeReg_cases h)
      | read off width t =>
        simp only [hostInstr, busRead] at h
        split at h
        · cases h
        · cases h
          unfold afterRead
          split <;> rfl
      | bnz =>
        simp only [hostInstr] at h
        cases h
        split <;> rfl
      | set => cases h; rfl
      | dec => cases h; rfl
    · cases h; rfl

end Sys2Proof.Machine
end

