-- ==== Sys2Proof/Tests/Slice0.lean ====
section
/-! SUPPORT. Tests. Expected values come from spec/95_test_vectors.md and the examples of the rules, or from the rules
by hand. The theorems named wit_<Name> show states and operands that meet the hypotheses of Obligations.<Name>. -/

namespace Sys2Proof.Tests

open Machine

/-- The next state, if there is one. -/
def after (o : Host.Outcome State Fault Refusal) : Option State :=
  match o with
  | .next s => some s
  | .fault _ => none
  | .refused _ => none

/-- The `STATUS` word after an outcome. -/
def statusAfter (o : Host.Outcome State Fault Refusal) : Option Word := (after o).map statusWord

/-- The key of S1 as words. -/
def key1 : Quad := ⟨0x01234567#32, 0x89ABCDEF#32, 0xFEDCBA98#32, 0x76543210#32⟩

/-- The ciphertext of S2 as words. -/
def cipher1 : Quad := ⟨0x681EDF34#32, 0xD206965E#32, 0x86B3E94F#32, 0x536E4246#32⟩

/-- The schedule V-KS-1, written out from its table. -/
def rk1 : RoundKeys :=
  ⟨⟨0xF12186F9#32, 0x41662B61#32, 0x5A6AB19A#32, 0x7BA92077#32⟩,
   ⟨0x367360F4#32, 0x776A0C61#32, 0xB6BB89B3#32, 0x24763151#32⟩,
   ⟨0xA520307C#32, 0xB7584DBD#32, 0xC30753ED#32, 0x7EE55B57#32⟩,
   ⟨0x6988608C#32, 0x30D895B7#32, 0x44BA14AF#32, 0x104495A1#32⟩,
   ⟨0xD120B428#32, 0x73B55FA3#32, 0xCC874966#32, 0x92244439#32⟩,
   ⟨0xE89E641F#32, 0x98CA015A#32, 0xC7159060#32, 0x99E1FD2E#32⟩,
   ⟨0xB79BD80C#32, 0x1D2115B0#32, 0x0E228AEB#32, 0xF1780C81#32⟩,
   ⟨0x428D3654#32, 0x62293496#32, 0x01CF72E5#32, 0x9124A012#32⟩⟩

/-- Idle, with the schedule V-KS-1 and a block in `DATA`. -/
def keyed (block : Quad) : State := { State.reset with keyValid := true, rk := rk1, key := key1, data := block }

/-- Idle, with an argument. -/
def argued (a : Word) : State := { State.reset with arg := a }

/-- A command in flight. -/
def flying (p : Pending) (s : State) : State := { s with pend := some p }

/-- The host's turn next, at one instruction. -/
def hostAt (hi : HostInstr) (s : State) : State := { s with host := ⟨[hi], 0, []⟩, turns := [.host] }

/-- The host about to write `v` to register `r`. -/
def writing (r : Reg) (v : Word) (s : State) : State := hostAt (hostWrite r v) s

/-- The given turn next. -/
def turnNext (turn : Turn) (s : State) : State := { s with turns := [turn] }

theorem writing_hostWrites (r : Reg) (v : Word) (s : State) : HostWrites (writing r v s) r v :=
  ⟨rfl, r.off, 4, .imm v, rfl, busTarget_off r, rfl⟩

/-! ### Syntax, WellFormed, decoding -/

/-- Each check of WellFormed refuses an ill-formed term: LEN 256 does not fit its field (30_encoding.md R73). -/
theorem test_wellformed_refuses_long_len :
    ¬ WellFormed (.ks 256) ∧ ¬ WellFormed (.enc 256) ∧ ¬ WellFormed (.dec 1000) := by decide

theorem test_wellformed_accepts_all_len_bytes : WellFormed (.ks 0) ∧ WellFormed (.enc 255) ∧ WellFormed .t := by decide

/-- SM4.KS len=16: RZ1 = 0, LEN = 00010000, RZ0 = 000, DIR = 0, OP = 0001 (R76). -/
theorem test_decode_ks : decode 0b0000000000000000_00010000_000_0_0001#32 = .ok (.ks 16) := by decide

/-- SM4.ENC len=16: OP = 0010, DIR = 0 (R76). -/
theorem test_decode_enc : decode 0b0000000000000000_00010000_000_0_0010#32 = .ok (.enc 16) := by decide

/-- SM4.DEC len=16: OP = 0010, DIR = 1 (R76). -/
theorem test_decode_dec : decode 0b0000000000000000_00010000_000_1_0010#32 = .ok (.dec 16) := by decide

/-- SM4.T: OP = 0011 (R76). -/
theorem test_decode_t : decode 0b0000000000000000_00000000_000_0_0011#32 = .ok .t := by decide

/-- SM4.TP: OP = 0100 (R76). -/
theorem test_decode_tp : decode 0b0000000000000000_00000000_000_0_0100#32 = .ok .tp := by decide

/-- V-DEC-W3, W4. -/
theorem test_decode_any_len : decode 0x00000001#32 = .ok (.ks 0) ∧ decode 0x0000FF01#32 = .ok (.ks 255) := by decide

/-- V-DEC-W1, W9 to W16. -/
theorem test_decode_illegal :
    decode 0x00000000#32 = .error .operation ∧ decode 0x00000005#32 = .error .operation ∧
    decode 0x0000000F#32 = .error .operation ∧ decode 0x00001011#32 = .error .direction ∧
    decode 0x00000014#32 = .error .direction ∧ decode 0x00000103#32 = .error .length ∧
    decode 0x00001082#32 = .error .reservedBits ∧ decode 0x80001002#32 = .error .reservedBits ∧
    decode 0xFFFFFFFF#32 = .error .reservedBits := by decide

theorem test_decode_table_word : decodeTableWord 32 0x00001012 = some (.dec 16) ∧ decodeTableWord 32 0 = none := by decide

/-- R79. -/
theorem test_encode_canonical : encode (.ks 16) = 0x00001001#32 ∧ encode (.enc 16) = 0x00001002#32 ∧
    encode (.dec 16) = 0x00001012#32 ∧ encode .t = 0x00000003#32 ∧ encode .tp = 0x00000004#32 := by decide

/-! ### Operators (95 §2.1, §2.2) -/

/-- V-ROT-1, 3, 4, 5, 6, 8. -/
theorem test_rotl : rotl 0x80000001#32 1 = 0x00000003#32 ∧ rotl 0x12345678#32 32 = 0x12345678#32 ∧
    rotl 0x12345678#32 33 = 0x2468ACF0#32 ∧ rotl 0x12345678#32 4 = 0x23456781#32 ∧
    rotl 0x12345678#32 31 = 0x091A2B3C#32 ∧ rotl 0x80000000#32 31 = 0x40000000#32 := by decide

/-- V-RF-5. -/
theorem test_operators : tau 0x01234567#32 = 0x90F473A2#32 ∧ linL 0x01234567#32 = 0xFA26EB37#32 ∧
    linLp 0x01234567#32 = 0xDA0F34E1#32 ∧ roundT 0x01234567#32 = 0x6EF180C9#32 ∧
    roundTp 0x01234567#32 = 0xCFC85B85#32 := by decide

/-- V-RF-6, V-RF-11: the fixed point of the S-box. -/
theorem test_operators_more : tau 0x89ABCDEF#32 = 0xF7AB1084#32 ∧ roundT 0xAB000000#32 = 0xD227AEAE#32 ∧
    roundTp 0xAB000000#32 = 0x1A59E8C7#32 := by decide

/-- R102: the three examples, and R103: one fixed point. -/
theorem test_sbox : sbox 0x00#8 = 0xD6#8 ∧ sbox 0x01#8 = 0x90#8 ∧ sbox 0xFF#8 = 0x48#8 ∧ sbox 0xAB#8 = 0xAB#8 := by
  decide

/-- R101: the first and last row of the table of CK. -/
theorem test_ck : (List.range 4).map ck = [0x00070E15#32, 0x1C232A31#32, 0x383F464D#32, 0x545B6269#32] ∧
    (List.range 4).map (fun j => ck (28 + j)) = [0x10171E25#32, 0x2C333A41#32, 0x484F565D#32, 0x646B7279#32] := by decide

/-! ### Commands -/

/-- V-KS-1: the whole schedule, and its seed. -/
theorem test_key_schedule : keySchedule key1 = rk1 ∧
    ksSeed key1 = ⟨0xA292FFA1#32, 0xDF01FEBF#32, 0x99A12B0F#32, 0xC42410CC#32⟩ := by decide

/-- V-KS-3: the last group of the all-ones key. -/
theorem test_key_schedule_ones :
    (keySchedule ⟨0xFFFFFFFF#32, 0xFFFFFFFF#32, 0xFFFFFFFF#32, 0xFFFFFFFF#32⟩).g7 =
      ⟨0x788769DD#32, 0xEC52978C#32, 0x3A968E53#32, 0x83B5F6B1#32⟩ := by decide

/-- V-KS-6: acceptance of SM4.KS clears KEY_VALID, STATUS = 0x00000001. -/
theorem test_ks_accepted : statusAfter (busWrite 0x00#8 4 0x00001001#32 (keyed key1)) = some 0x00000001#32 := by decide

/-- V-KS-4: LEN = 15 gives STATUS = 0x00000202. -/
theorem test_ks_len15 : statusAfter (busWrite 0x00#8 4 0x00000F01#32 (keyed key1)) = some 0x00000202#32 := by decide

/-- S2. -/
theorem test_enc_completes : (engineTurn (flying (.enc key1) (keyed key1))).data = cipher1 := by decide

/-- V-BLK-E1, E2: NO_KEY, and BLOCK_LEN before NO_KEY. -/
theorem test_enc_rejected : statusAfter (busWrite 0x00#8 4 0x00001002#32 State.reset) = some 0x00000400#32 ∧
    statusAfter (busWrite 0x00#8 4 0x00000F02#32 State.reset) = some 0x00000300#32 := by decide

/-- S3, not the literal reading of V-DEC-2. -/
theorem test_dec_completes : (engineTurn (flying (.dec cipher1) (keyed cipher1))).data = key1 := by decide

/-- V-BLK-E3: LEN = 32 gives STATUS = 0x00000302. -/
theorem test_dec_len32 : statusAfter (busWrite 0x00#8 4 0x00002012#32 (keyed key1)) = some 0x00000302#32 := by decide

/-- V-DEC-5. -/
theorem test_dec_other_block : transform .decrypt rk1 key1 =
    ⟨0x9338375E#32, 0x82EEC1CB#32, 0xBEF65EDF#32, 0x8757A631#32⟩ := by decide

/-- V-CT-1. -/
theorem test_t_completes : (engineTurn (flying (.t 0x01234567#32) (argued 0x01234567#32))).res = 0x6EF180C9#32 ∧
    statusAfter (busWrite 0x00#8 4 0x00000003#32 (argued 0x01234567#32)) = some 0x00000001#32 := by decide

/-- V-CT-2. -/
theorem test_tp_completes : (engineTurn (flying (.tp 0x6EF180C9#32) (argued 0x6EF180C9#32))).res = 0x0917BDB2#32 := by
  decide

/-- V-CT-5, V-CT-6. -/
theorem test_t_illegal : statusAfter (busWrite 0x00#8 4 0x00000013#32 State.reset) = some 0x00000100#32 ∧
    statusAfter (busWrite 0x00#8 4 0x00001003#32 State.reset) = some 0x00000100#32 := by decide

/-! ### The window, the host and the schedule -/

/-- V-BUS-1, 3, 4: reserved, 8-bit, misaligned. -/
theorem test_bus_errors : step (hostAt (.read 0x08#8 4 0) State.reset) = .fault (.busError (busAddr 0x08#8)) ∧
    step (hostAt (.read 0x20#8 1 0) State.reset) = .fault (.busError (busAddr 0x20#8)) ∧
    step (hostAt (.read 0x22#8 4 0) State.reset) = .fault (.busError (busAddr 0x22#8)) := ⟨rfl, rfl, rfl⟩

/-- V-BUS-9, 10: write 1 to clear, on bit 2 alone. -/
theorem test_overrun_clear :
    statusAfter (busWrite 0x04#8 4 0x00000004#32 { State.reset with overrun := true }) = some 0x00000000#32 ∧
    statusAfter (busWrite 0x04#8 4 0xFFFFFFFB#32 { State.reset with overrun := true }) = some 0x00000004#32 := by decide

/-- V-BUS-12: a `CMD` write while busy is dropped and sets OVERRUN. -/
theorem test_busy_cmd : statusAfter (busWrite 0x00#8 4 0x00001002#32 (flying (.enc key1) (keyed key1))) =
    some 0x00000007#32 := by decide

/-- V-KS-8, V-BUS-7: `KEY` and, with no schedule, `RK` read 0. -/
theorem test_reads_zero : readReg (.key 0) (keyed key1) = 0#32 ∧
    readReg (.rk 31) { keyed key1 with keyValid := false } = 0#32 ∧ readReg (.rk 31) (keyed key1) = 0x9124A012#32 := by
  decide

/-- V-BUS-13, 14: `DATA` is open during SM4.ENC, `RES` is not. -/
theorem test_open_reads : readOpen (.data 0) (flying (.enc key1) (keyed key1)) = true ∧
    readOpen .res (flying (.enc key1) (keyed key1)) = false := by decide

/-- P4: `W DATA0` after `W CMD, SM4.DEC`: dropped if the engine's turn comes later (outcome A). -/
theorem test_p4_outcome_a : after (step (writing (.data 0) 0xDEADBEEF#32 (flying (.dec cipher1) (keyed cipher1)))) =
    some { writing (.data 0) 0xDEADBEEF#32 (flying (.dec cipher1) (keyed cipher1)) with
      overrun := true, turns := [], host := ⟨[hostWrite (.data 0) 0xDEADBEEF#32], 1, []⟩ } := by decide

/-- P4: the write lands if the engine's turn comes first (outcome B). -/
theorem test_p4_outcome_b : (after (step (writing (.data 0) 0xDEADBEEF#32 (keyed key1)))).map State.data =
    some ⟨0xDEADBEEF#32, 0x89ABCDEF#32, 0xFEDCBA98#32, 0x76543210#32⟩ := by decide

/-- V-RST-2: reset abandons a command in flight. -/
theorem test_reset_abandons : (after (step (turnNext .reset (flying (.enc key1) (keyed key1))))).map
    (fun s => (s.data, statusWord s)) = some (⟨0#32, 0#32, 0#32, 0#32⟩, 0#32) := by decide

/-- R80: BNZ takes its branch on a masked bit, and SET and DEC change their variable (DEC wraps). -/
theorem test_host_control :
    (after (step (hostAt (.bnz 0 0x1#32 7) { State.reset with turns := [] }))).isSome ∧
    (after (hostInstr (.bnz 0 0x1#32 7) { State.reset with host := ⟨[], 0, [(0, 3#32)]⟩ })).map (·.host.pc) = some 7 ∧
    (after (hostInstr (.dec 0) { State.reset with host := ⟨[], 0, [(0, 0#32)]⟩ })).map (fun s => hostVar s 0) =
      some 0xFFFFFFFF#32 := ⟨rfl, by decide, by decide⟩

/-- R81: SETKEY is KEY writes, the command and the polling loop. -/
theorem test_setkey : setKey key1 0 9 =
    [.write 0x10#8 4 (.imm 0x01234567#32), .write 0x14#8 4 (.imm 0x89ABCDEF#32), .write 0x18#8 4 (.imm 0xFEDCBA98#32),
     .write 0x1C#8 4 (.imm 0x76543210#32), .write 0x00#8 4 (.imm 0x00001001#32), .read 0x04#8 4 9, .bnz 9 1#32 5] := by
  decide

theorem test_fetch_word : statusAfter (step (State.reset.withFetchWord 32 0x00001002)) = some 0x00000400#32 ∧
    statusAfter (step (State.reset.withFetchWord 32 0x00001001)) = some 0x00000001#32 := by decide

/-- R13: byte 0 in bits 31:24, and back. -/
theorem test_big_endian : wordOfBytes 0x01#8 0x23#8 0x45#8 0x67#8 = 0x01234567#32 ∧
    bytesBe 0x01234567#32 = [0x01#8, 0x23#8, 0x45#8, 0x67#8] := by decide

/-! ### Witnesses of the statements' hypotheses -/

theorem wit_EncodedCommandsDecodeBack : WellFormed (.ks 255) ∧ WellFormed (.enc 0) ∧ WellFormed (.dec 255) ∧
    WellFormed .t ∧ WellFormed .tp := by decide

theorem wit_DecodedWordsEncodeBack : decode 0x0000FF01#32 = .ok (.ks 255) ∧ decode 0x00000002#32 = .ok (.enc 0) ∧
    decode 0x0000FF12#32 = .ok (.dec 255) ∧ decode 0x00000003#32 = .ok .t ∧ decode 0x00000004#32 = .ok .tp := by decide

/-- One word for each line of the statement, at the edges of OP. -/
theorem wit_DecodeFollowsFields :
    (0x80000001#32 : Word).extractLsb' 16 16 ≠ 0#16 ∧ (0x00000081#32 : Word).extractLsb' 5 3 ≠ 0#3 ∧
    (0x00000001#32 : Word).extractLsb' 0 4 = 1#4 ∧ (0x00000011#32 : Word).getLsbD 4 = true ∧
    (0x00000002#32 : Word).extractLsb' 0 4 = 2#4 ∧ (0x00000012#32 : Word).getLsbD 4 = true ∧
    (0x00000103#32 : Word).extractLsb' 0 4 = 3#4 ∧ (0x00000103#32 : Word).extractLsb' 8 8 ≠ 0#8 ∧
    (0x00000014#32 : Word).extractLsb' 0 4 = 4#4 ∧ (0x00000014#32 : Word).getLsbD 4 = true ∧
    (0x00000000#32 : Word).extractLsb' 0 4 = 0#4 ∧ 5#4 ≤ (0x00000005#32 : Word).extractLsb' 0 4 ∧
    5#4 ≤ (0x0000000F#32 : Word).extractLsb' 0 4 ∧ ¬ 5#4 ≤ (0x00000004#32 : Word).extractLsb' 0 4 := by decide

theorem wit_DecodeSelectsItsRow : (Instr.ks 0).row ∈ opcodeTable ∧
    (0x0000FF01#32 &&& (Instr.ks 0).row.mask) = (Instr.ks 0).row.pattern := by decide

theorem wit_IllegalWordsAreRejected : State.reset.busy = false ∧ decode 0x00000000#32 = .error .operation := by decide

theorem wit_WrongLengthsDecodeAndAreRejected : (255 < 256 ∧ 255 ≠ 16) ∧ (15 < 256 ∧ 15 ≠ 16) ∧ (17 < 256 ∧ 17 ≠ 16) ∧
    State.reset.busy = false := by decide

/-- `asmWord` with N at the edges 0 and 255. -/
theorem wit_MnemonicsHaveTheirWords : (0 < 256 ∧ 255 < 256) ∧ asmWord (.ks (some 255)) = 0x0000FF01#32 := by decide

theorem wit_WindowMapIsExact : busTarget 0xFC#8 4 = some (.rk 31) ∧ busTarget 0x80#8 4 = some (.rk 0) ∧
    busTarget 0x10#8 4 = some (.key 0) ∧ busTarget 0x2C#8 4 = some (.data 3) := by decide

/-- The edges of the reserved offsets. -/
theorem wit_ReservedOffsetsDrawBusError : (0x08#8).toNat % 4 = 0 ∧ (0x0C#8).toNat % 4 = 0 ∧
    ((0x38#8).toNat % 4 = 0 ∧ 0x38#8 ≤ 0x38#8) ∧ ((0x7C#8).toNat % 4 = 0 ∧ 0x7C#8 ≤ 0x7C#8) := by decide

theorem wit_StepFaultsExactlyOnBadAccesses :
    step (hostAt (.write 0x40#8 4 (.imm 0#32)) (flying (.t 0#32) State.reset)) = .fault (.busError (busAddr 0x40#8)) ∧
    step (hostAt (.read 0x20#8 1 0) State.reset) = .fault (.busError (busAddr 0x20#8)) := ⟨rfl, rfl⟩

theorem wit_BusyWritesAreDropped : (flying (.t 0#32) State.reset).busy = true ∧ Reg.cmd ≠ Reg.status ∧
    Reg.rk 31 ≠ Reg.status ∧ busTarget 0x08#8 4 = none ∧ busTarget 0x21#8 4 = none := by decide

theorem wit_ReadOnlyAndWriteOnlyRegisters : State.reset.busy = false := rfl

theorem wit_ReadsHaveNoSideEffect : readOpen .arg State.reset = false ∧
    busRead (Reg.off .arg) 4 0 State.reset = .next (setVar 0 0#32 State.reset) := ⟨rfl, rfl⟩

/-- A read that answers and one that faults. -/
theorem wit_KeyIsNeverObservedByReads :
    busRead 0x10#8 4 0 State.reset = .next (setVar 0 0#32 State.reset) ∧
    busRead 0x08#8 4 0 State.reset = .fault (.busError (busAddr 0x08#8)) := ⟨rfl, rfl⟩

theorem flying_ks_inv : EngineInv (flying (.ks zeroQuad) State.reset) :=
  ⟨⟨rfl, rfl⟩, fun _ => rfl, fun h => by cases h⟩

theorem wit_ReadsDuringFlight :
    (flying (.enc key1) State.reset).pend = some (.enc key1) ∧ (flying (.dec key1) State.reset).pend = some (.dec key1) ∧
    (flying (.t 0#32) State.reset).pend = some (.t 0#32) ∧ (flying (.tp 0#32) State.reset).pend = some (.tp 0#32) ∧
    (∀ n, Reg.res ≠ Reg.data n) ∧ (∀ n : Fin 4, Reg.data n ≠ Reg.res) ∧ EngineInv (flying (.ks zeroQuad) State.reset) ∧
    (flying (.ks zeroQuad) State.reset).pend = some (.ks zeroQuad) :=
  ⟨rfl, rfl, rfl, rfl, by decide, by decide, flying_ks_inv, rfl⟩

/-- n at its edges 0, 3, 4 and 31. -/
theorem wit_RoundKeyWindow : State.reset.busy = false ∧
    ((0 : Fin 32).val / 4 = (0 : Fin 8).val ∧ (0 : Fin 32).val % 4 = (0 : Fin 4).val) ∧
    ((4 : Fin 32).val / 4 = (1 : Fin 8).val ∧ (4 : Fin 32).val % 4 = (0 : Fin 4).val) ∧
    ((31 : Fin 32).val / 4 = (7 : Fin 8).val ∧ (31 : Fin 32).val % 4 = (3 : Fin 4).val) := by decide

theorem wit_StatusShowsTheIssueAtOnce : State.reset.busy = false ∧ firstFailing 0x00000003#32 State.reset = none ∧
    firstFailing 0x00001002#32 State.reset = some .noKey := by decide

/-- The top bit wraps. -/
theorem wit_RotateLeftMovesBits : 31 < 32 ∧ (rotl 0x80000000#32 33).getLsbD ((31 + 33) % 32) = true := by decide

theorem wit_TCommand : State.reset.busy = false ∧ (0x00000103#32 : Word).extractLsb' 0 4 = 3#4 ∧
    0x00000103#32 ≠ 0x00000003#32 := by decide

theorem wit_TpCommand : State.reset.busy = false ∧ (0x00000014#32 : Word).extractLsb' 0 4 = 4#4 ∧
    0x00000014#32 ≠ 0x00000004#32 := by decide

theorem wit_KsCommand : State.reset.busy = false ∧ (0x0000FF01#32 &&& 0xFFFF00FF#32) = 0x00000001#32 ∧ 15 ≠ 16 ∧
    ((0x00000011#32 : Word).extractLsb' 0 4 = 1#4 ∧ (0x00000011#32 : Word).getLsbD 4 = true) ∧
    ((0x00000021#32 : Word).extractLsb' 0 4 = 1#4 ∧ (0x00000021#32 : Word).extractLsb' 5 3 ≠ 0#3) ∧
    ((0x00010001#32 : Word).extractLsb' 0 4 = 1#4 ∧ (0x00010001#32 : Word).extractLsb' 16 16 ≠ 0#16) := by decide

theorem wit_EncCommand : ((keyed key1).busy = false ∧ (keyed key1).keyValid = true) ∧ State.reset.keyValid = false ∧
    (0x0000FF02#32 &&& 0xFFFF00FF#32) = 0x00000002#32 ∧
    ((0x00001022#32 : Word).extractLsb' 0 5 = 2#5 ∧ (0x00001022#32 : Word).extractLsb' 5 3 ≠ 0#3) ∧
    ((0x00011002#32 : Word).extractLsb' 0 5 = 2#5 ∧ (0x00011002#32 : Word).extractLsb' 16 16 ≠ 0#16) ∧
    (flying (.enc key1) (keyed key1)).pend = some (.enc key1) := by decide

theorem wit_DecCommand : ((keyed key1).busy = false ∧ (keyed key1).keyValid = true) ∧ State.reset.keyValid = false ∧
    (0x0000FF12#32 &&& 0xFFFF00FF#32) = 0x00000012#32 ∧
    ((0x00001032#32 : Word).extractLsb' 0 5 = 18#5 ∧ (0x00001032#32 : Word).extractLsb' 5 3 ≠ 0#3) ∧
    ((0x00011012#32 : Word).extractLsb' 0 5 = 18#5 ∧ (0x00011012#32 : Word).extractLsb' 16 16 ≠ 0#16) ∧
    (flying (.dec key1) (keyed key1)).pend = some (.dec key1) := by decide

theorem wit_AcceptanceCapturesOperands : (keyed key1).busy = false ∧ (keyed key1).keyValid = true := by decide

/-- One state for each command, and one with none. -/
theorem wit_CompletionWritesResults :
    nextTurn (turnNext .engine State.reset) = .engine ∧ (turnNext .engine State.reset).pend = none ∧
    (turnNext .engine (flying (.ks key1) State.reset)).pend = some (.ks key1) ∧
    (turnNext .engine (flying (.enc key1) (keyed key1))).pend = some (.enc key1) ∧
    (turnNext .engine (flying (.dec key1) (keyed key1))).pend = some (.dec key1) ∧
    (turnNext .engine (flying (.t 1#32) (argued 1#32))).pend = some (.t 1#32) ∧
    (turnNext .engine (flying (.tp 1#32) (argued 1#32))).pend = some (.tp 1#32) := by decide

theorem wit_RejectionChangesErrAlone : State.reset.busy = false ∧
    firstFailing 0x00001011#32 State.reset = some .illegalCmd ∧ firstFailing 0x00001101#32 State.reset = some .keyLen ∧
    firstFailing 0x00000F12#32 State.reset = some .blockLen ∧ firstFailing 0x00001002#32 State.reset = some .noKey := by
  decide

theorem wit_CommandChecksInOrder : State.reset.busy = false ∧ (keyed key1).busy = false ∧
    (keyed key1).keyValid = true ∧ decode 0x00001011#32 = .error .direction ∧ decode 0x00000F01#32 = .ok (.ks 15) ∧
    decode 0x00001001#32 = .ok (.ks 16) ∧ decode 0x00000F02#32 = .ok (.enc 15) ∧ decode 0x00001012#32 = .ok (.dec 16) ∧
    decode 0x00000003#32 = .ok .t ∧ decode 0x00000004#32 = .ok .tp := by decide

theorem wit_BusyCommandsAreDropped : (flying (.t 0#32) State.reset).busy = true := rfl

theorem wit_AcceptedCommandsCannotFail :
    ((turnNext .engine (flying (.t 0#32) State.reset)).busy = true ∧
      nextTurn (turnNext .engine (flying (.t 0#32) State.reset)) = .engine) ∧ State.reset.busy = false := by decide

/-- A next state in each of the three ways: dropped, rejected, accepted. -/
theorem wit_CommandFrame :
    exec .t (flying (.tp 0#32) State.reset) = .next { flying (.tp 0#32) State.reset with overrun := true } ∧
    exec (.enc 16) State.reset = .next { State.reset with err := .noKey } ∧
    exec (.ks 16) (keyed key1) =
      .next { keyed key1 with keyValid := false, err := .noError, pend := some (.ks key1) } := ⟨rfl, rfl, rfl⟩

theorem wit_CompletionFrame :
    (flying (.ks key1) State.reset).pend = some (.ks key1) ∧ (flying (.enc key1) (keyed key1)).pend = some (.enc key1) ∧
    (flying (.dec key1) (keyed key1)).pend = some (.dec key1) ∧ (flying (.t 0#32) State.reset).pend = some (.t 0#32) ∧
    (flying (.tp 0#32) State.reset).pend = some (.tp 0#32) := ⟨rfl, rfl, rfl, rfl, rfl⟩

/-- A host about to have SM4.KS accepted; one about to have it rejected; a busy one about to write `CMD`, `STATUS`. -/
theorem accepts_ks : Accepts (writing .cmd 0x00001001#32 (keyed key1)) 0x00001001#32 :=
  ⟨writing_hostWrites _ _ _, rfl, by decide⟩

theorem rejects_ks : Rejects (writing .cmd 0x00000F01#32 (keyed key1)) 0x00000F01#32 .keyLen :=
  ⟨writing_hostWrites _ _ _, rfl, by decide⟩

theorem completes_ks : Completes (turnNext .engine (flying (.ks key1) State.reset)) (.ks key1) := ⟨rfl, rfl⟩

theorem resets_flying : Resets (turnNext .reset (flying (.enc key1) (keyed key1))) := rfl

/-- Every kind of step the statements about changes speak of answers a next state. -/
theorem those_steps_answer :
    (after (step (writing .cmd 0x00001001#32 (keyed key1)))).isSome ∧
    (after (step (writing .cmd 0x00000F01#32 (keyed key1)))).isSome ∧
    (after (step (turnNext .engine (flying (.ks key1) State.reset)))).isSome ∧
    (after (step (turnNext .reset (flying (.enc key1) (keyed key1))))).isSome ∧
    (after (step (writing .status 0x4#32 (flying (.t 0#32) State.reset)))).isSome ∧
    (after (step (writing .cmd 0x3#32 (flying (.t 0#32) State.reset)))).isSome := by decide

/-- BUSY goes up by acceptance, down by completion and by reset, and a `STATUS` write leaves it. -/
theorem wit_BusyChangesOnlySo :
    ((after (step (writing .cmd 0x00001001#32 (keyed key1)))).map State.busy = some true ∧ (keyed key1).busy = false) ∧
    (after (step (turnNext .engine (flying (.ks key1) State.reset)))).map State.busy = some false ∧
    (after (step (turnNext .reset (flying (.enc key1) (keyed key1))))).map State.busy = some false ∧
    (after (step (writing .status 0x4#32 (flying (.t 0#32) State.reset)))).map State.busy = some true := by decide

theorem wit_KeyValidChangesOnlySo :
    (∃ s c, Accepts s c ∧ s.keyValid = true ∧ decode c = .ok (.ks 16) ∧
      (after (step s)).map State.keyValid = some false) ∧
    (∃ s, Completes s (.ks key1) ∧ s.keyValid = false ∧ (after (step s)).map State.keyValid = some true) ∧
    (∃ s, Resets s ∧ (after (step s)).map State.keyValid = some false) ∧
    ∃ s c, Rejects s c .keyLen ∧ decode c = .ok (.ks 15) :=
  ⟨⟨_, _, accepts_ks, rfl, by decide, by decide⟩, ⟨_, completes_ks, rfl, by decide⟩, ⟨_, resets_flying, by decide⟩,
    ⟨_, _, rejects_ks, by decide⟩⟩

theorem wit_OverrunChangesOnlySo :
    (∃ s v, HostWrites s .arg v ∧ s.busy = true ∧ (after (step s)).map State.overrun = some true) ∧
    (∃ s v, HostWrites s .status v ∧ s.overrun = true ∧ (after (step s)).map State.overrun = some false) ∧
    ∃ s, Resets s ∧ (after (step s)).isSome :=
  ⟨⟨_, _, writing_hostWrites .arg 0#32 (flying (.t 0#32) State.reset), rfl, by decide⟩,
    ⟨_, _, writing_hostWrites .status 4#32 { State.reset with overrun := true }, rfl, by decide⟩,
    ⟨_, resets_flying, by decide⟩⟩

theorem wit_ErrChangesOnlySo :
    (∃ s c, Accepts s c ∧ (after (step s)).isSome) ∧ (∃ s c, Rejects s c .keyLen ∧ (after (step s)).isSome) ∧
    (∃ s c, HostWrites s .cmd c ∧ s.busy = true ∧ (after (step s)).isSome) ∧
    (∃ s p, Completes s p ∧ EngineInv s ∧ (after (step s)).isSome) ∧ ∃ s, Resets s ∧ (after (step s)).isSome :=
  ⟨⟨_, _, accepts_ks, by decide⟩, ⟨_, _, rejects_ks, by decide⟩,
    ⟨_, _, writing_hostWrites .cmd 3#32 (flying (.t 0#32) State.reset), rfl, by decide⟩,
    ⟨turnNext .engine (flying (.ks zeroQuad) State.reset), _, ⟨rfl, rfl⟩,
      ⟨⟨rfl, rfl⟩, fun _ => rfl, fun h => by cases h⟩, by decide⟩,
    ⟨_, resets_flying, by decide⟩⟩

/-- The reads' premises hold in an idle state and while SM4.KS is in flight. -/
theorem wit_KeyAndDataChangeOnlySo :
    ((∀ block, State.reset.pend ≠ some (.enc block)) ∧ ∀ block, State.reset.pend ≠ some (.dec block)) ∧
    ((∀ block, (flying (.ks key1) State.reset).pend ≠ some (.enc block)) ∧
      ∀ block, (flying (.ks key1) State.reset).pend ≠ some (.dec block)) ∧ State.reset.busy = false ∧
    (∃ s v, HostWrites s (.key 3) v ∧ s.busy = false ∧ (after (step s)).map State.key ≠ some s.key) ∧
    (∃ s v, HostWrites s (.data 0) v ∧ s.busy = false ∧ (after (step s)).map State.data ≠ some s.data) ∧
    ∃ s block, Completes s (.enc block) ∧ (after (step s)).map State.data ≠ some s.data :=
  ⟨⟨nofun, nofun⟩, ⟨nofun, nofun⟩, rfl, ⟨_, _, writing_hostWrites (.key 3) 1#32 State.reset, rfl, by decide⟩,
    ⟨_, _, writing_hostWrites (.data 0) 1#32 State.reset, rfl, by decide⟩,
    ⟨turnNext .engine (flying (.enc key1) (keyed key1)), key1, ⟨rfl, rfl⟩, by decide⟩⟩

theorem wit_ArgChangesOnlySo : State.reset.busy = false ∧
    (∃ s v, HostWrites s .arg v ∧ s.busy = false ∧ (after (step s)).map State.arg ≠ some s.arg) ∧
    ∃ s, Resets s ∧ (after (step s)).isSome :=
  ⟨rfl, ⟨_, _, writing_hostWrites .arg 1#32 State.reset, rfl, by decide⟩, ⟨_, resets_flying, by decide⟩⟩

/-- The read's premises hold in an idle state and while SM4.ENC is in flight. -/
theorem wit_ResChangesOnlySo : State.reset.busy = false ∧
    ((∀ a, State.reset.pend ≠ some (.t a)) ∧ ∀ a, State.reset.pend ≠ some (.tp a)) ∧
    ((∀ a, (flying (.enc key1) (keyed key1)).pend ≠ some (.t a)) ∧
      ∀ a, (flying (.enc key1) (keyed key1)).pend ≠ some (.tp a)) ∧
    (∃ s a, Completes s (.t a) ∧ (after (step s)).map State.res ≠ some s.res) ∧
    ∃ s a, Completes s (.tp a) ∧ (after (step s)).map State.res ≠ some s.res :=
  ⟨rfl, ⟨nofun, nofun⟩, ⟨nofun, nofun⟩,
    ⟨turnNext .engine (flying (.t 0#32) State.reset), 0#32, ⟨rfl, rfl⟩, by decide⟩,
    ⟨turnNext .engine (flying (.tp 0#32) State.reset), 0#32, ⟨rfl, rfl⟩, by decide⟩⟩

theorem wit_OnlyKsCompletionWritesRoundKeys :
    ∃ s key, Completes s (.ks key) ∧ (after (step s)).map State.rk ≠ some s.rk :=
  ⟨_, _, completes_ks, by decide⟩

/-- The invariant holds of a busy keyed state, not only of idle ones, and that state steps. -/
theorem wit_StepKeepsInvariant :
    EngineInv (flying (.enc key1) (keyed key1)) ∧ (after (step (flying (.enc key1) (keyed key1)))).isSome :=
  ⟨⟨⟨rfl, rfl⟩, fun _ => rfl, fun _ => ⟨key1, by decide⟩⟩, by decide⟩

theorem wit_BusyComesToAnEnd : (flying (.t 0#32) State.reset).busy = true := rfl

theorem wit_DecryptionInvertsEncryption : (keyed key1).busy = false ∧ (keyed key1).keyValid = true := by decide

/-- The sequence X of a recurrence of the block transform's shape, from any first four words. -/
def seqFrom (f : Nat → Word → Word → Word → Word → Word) (q : Quad) (n : Nat) : Quad :=
  match n with
  | 0 => q
  | i + 1 =>
    let p := seqFrom f q i
    ⟨p.w1, p.w2, p.w3, f i p.w0 p.w1 p.w2 p.w3⟩

theorem wit_BlockTransformIndexedForm : ∃ (kw X : Nat → Word),
    (∀ n : Fin 32, kw n.val = rkWord rk1 n) ∧ (∀ n : Fin 4, X n.val = quadGet key1 n) ∧
    ∀ n < 32, X (n + 4) = X n ^^^ roundT (X (n + 1) ^^^ X (n + 2) ^^^ X (n + 3) ^^^ kw n) := by
  refine ⟨fun n => rkWord rk1 (Fin.ofNat 32 n), fun n => (seqFrom (fun i a b c d =>
    a ^^^ roundT (b ^^^ c ^^^ d ^^^ rkWord rk1 (Fin.ofNat 32 i))) key1 n).w0, fun n => by simp, ?_, fun n _ => rfl⟩
  intro n
  fin_cases n <;> rfl

theorem wit_KeyScheduleIndexedForm : ∃ K : Nat → Word,
    (∀ n : Fin 4, K n.val = quadGet key1 n ^^^ quadGet fk n) ∧
    ∀ n < 32, K (n + 4) = K n ^^^ roundTp (K (n + 1) ^^^ K (n + 2) ^^^ K (n + 3) ^^^ ck n) := by
  refine ⟨fun n => (seqFrom (fun i a b c d => a ^^^ roundTp (b ^^^ c ^^^ d ^^^ ck i)) (ksSeed key1) n).w0, ?_,
    fun n _ => rfl⟩
  intro n
  fin_cases n <;> rfl

theorem wit_ScheduleDependsOnKeyAlone : (keyed cipher1).busy = false ∧ (keyed key1).busy = false ∧
    (keyed cipher1).key = (keyed key1).key := by decide

theorem wit_ResetFromAnyState : Resets (turnNext .reset (flying (.enc key1) (keyed key1))) := resets_flying

theorem wit_StepRunsTheDecodedCommand :
    HostWrites (writing .cmd 0x00001002#32 (keyed key1)) .cmd 0x00001002#32 ∧ decode 0x00001002#32 = .ok (.enc 16) ∧
    WellFormed (.ks 255) := ⟨writing_hostWrites _ _ _, by decide, by decide⟩

/-- A busy state whose host polls `STATUS`. -/
theorem wit_WaitingHostMeetsNoHazard :
    WaitRule (hostAt (hostRead .status 0) (flying (.enc key1) (keyed key1))) ∧
    HostReads (hostAt (hostRead .status 0) (flying (.enc key1) (keyed key1))) .status 0 ∧
    (after (step (hostAt (hostRead .status 0) (flying (.enc key1) (keyed key1))))).isSome := by
  have fetched : hostFetch (hostAt (hostRead .status 0) (flying (.enc key1) (keyed key1))) =
      some (.read 0x04#8 4 0) := rfl
  refine ⟨fun _ => ⟨fun off width v r h => ?_, fun off width t r h hr => ?_⟩, ⟨rfl, _, _, rfl, rfl⟩, rfl⟩
  · rw [fetched] at h
    cases h
  · rw [fetched] at h
    cases h
    cases (busTarget_off .status).symm.trans hr
    rfl

theorem wit_FinalStatesRestAndBusyOnesComplete : Final State.reset ∧ State.reset.turns = [] ∧
    (flying (.t 0#32) State.reset).busy = true ∧ (flying (.t 0#32) State.reset).turns = [] := ⟨⟨rfl, rfl⟩, rfl, rfl, rfl⟩

end Sys2Proof.Tests
end

section
/-! PROOFS. The statements of 00_scope.md: byte order of a block (R13), and a step as the command it runs (R8). -/

namespace Sys2Proof.Machine

/-! ### Byte order (00_scope.md R13; 20_memory.md R58) -/

theorem wordOfBytes_extract (b0 b1 b2 b3 : Byte) (m : Fin 4) :
    (wordOfBytes b0 b1 b2 b3).extractLsb' (24 - 8 * m.val) 8 = [b0, b1, b2, b3][m.val] := by
  have high {v w start : Nat} {xhi : BitVec v} {xlo : BitVec w} (h : w ≤ start) :=
    BitVec.extractLsb'_append_eq_of_le (len := 8) (xhi := xhi) (xlo := xlo) h
  have low {v w start : Nat} {xhi : BitVec v} {xlo : BitVec w} (h : start + 8 ≤ w) :=
    BitVec.extractLsb'_append_eq_of_add_le (xhi := xhi) (xlo := xlo) h
  unfold wordOfBytes
  match m with
  | 0 => rw [high (by decide), high (by decide), high (by decide)]; exact BitVec.extractLsb'_eq_self
  | 1 => rw [high (by decide), high (by decide), low (by decide)]; exact BitVec.extractLsb'_eq_self
  | 2 => rw [high (by decide), low (by decide)]; exact BitVec.extractLsb'_eq_self
  | 3 => rw [low (by decide)]; exact BitVec.extractLsb'_eq_self

theorem bytesBe_wordOfBytes (b0 b1 b2 b3 : Byte) : bytesBe (wordOfBytes b0 b1 b2 b3) = [b0, b1, b2, b3] := by
  have h := wordOfBytes_extract b0 b1 b2 b3
  simpa [bytesBe] using And.intro (h 0) (And.intro (h 1) (And.intro (h 2) (h 3)))

theorem quadGet_quadOfBytes (b : Vector Byte 16) (n : Fin 4) : quadGet (quadOfBytes b) n = be32 b n := by
  match n with
  | 0 => rfl
  | 1 => rfl
  | 2 => rfl
  | 3 => rfl

theorem be32_extract (b : Vector Byte 16) (n m : Fin 4) :
    (be32 b n).extractLsb' (24 - 8 * m.val) 8 = b[4 * n.val + m.val] := by
  rw [be32, wordOfBytes_extract]
  match m with
  | 0 => rfl
  | 1 => rfl
  | 2 => rfl
  | 3 => rfl

theorem bytesOfQuad_quadOfBytes (b : Vector Byte 16) : bytesOfQuad (quadOfBytes b) = b.toList := by
  have h : b.toList = List.ofFn fun i : Fin 16 => b[i.val] := by
    rw [← Vector.toList_ofFn, Vector.ofFn_getElem]
  rw [h]
  simp only [bytesOfQuad, quadOfBytes, be32, bytesBe_wordOfBytes]
  rfl

/-- Settles O25: each byte of a word built from four bytes is the byte given, so the words hold the sequence in order. -/
theorem blockBytesAreBigEndian : Obligations.BlockBytesAreBigEndian := by
  intro b
  refine ⟨bytesOfQuad_quadOfBytes b, fun n m => ?_⟩
  rw [quadGet_quadOfBytes, be32_extract]

/-! ### The step that runs a command (00_scope.md R8; 60_exceptions.md R200) -/

/-- `lenWord_fields` for a LEN given as a number, in the form the `decode_eq_` lemmas ask. -/
theorem lenWord_fields_of_lt (p : Word) (hp : fieldLen p = 0#8) {len : Nat} (h : len < 256) :
    (fieldRz1 (p ||| BitVec.ofNat 32 len <<< 8) = fieldRz1 p ∧ fieldRz0 (p ||| BitVec.ofNat 32 len <<< 8) = fieldRz0 p ∧
      fieldDir (p ||| BitVec.ofNat 32 len <<< 8) = fieldDir p ∧ fieldOp (p ||| BitVec.ofNat 32 len <<< 8) = fieldOp p) ∧
    len = (fieldLen (p ||| BitVec.ofNat 32 len <<< 8)).toNat := by
  have hlen : (BitVec.ofNat 8 len).toNat = len := Nat.mod_eq_of_lt h
  obtain ⟨hrz1, hl, hrz0, hdir, hop⟩ := lenWord_fields p hp (BitVec.ofNat 8 len)
  rw [hlen] at hrz1 hl hrz0 hdir hop
  exact ⟨⟨hrz1, hrz0, hdir, hop⟩, by rw [hl, hlen]⟩

theorem decode_encode {i : Instr} (hw : WellFormed i) : decode (encode i) = .ok i := by
  cases i with
  | ks len => exact (decode_eq_ks _ _).2 (lenWord_fields_of_lt 0x00000001#32 rfl (of_decide_eq_true hw))
  | enc len => exact (decode_eq_enc _ _).2 (lenWord_fields_of_lt 0x00000002#32 rfl (of_decide_eq_true hw))
  | dec len => exact (decode_eq_dec _ _).2 (lenWord_fields_of_lt 0x00000012#32 rfl (of_decide_eq_true hw))
  | t => rfl
  | tp => rfl

/-- A `CMD` write of a legal word is the command's `exec`, which itself drops the write while BUSY = 1. -/
theorem writeReg_cmd_of_decode {c : Word} {i : Instr} (h : decode c = .ok i) (s : State) :
    writeReg .cmd c s = exec i s := by
  cases hb : s.busy with
  | true => rw [writeReg_busy (by decide) hb, exec_eq_issue, issue_busy hb]
  | false => rw [writeReg_cmd_idle hb, issueCommand, h]

/-- A step that is a host write is that register write, the turn used up and the host at its next instruction. -/
theorem step_eq_writeReg {s : State} {r : Reg} {v : Word} (h : HostWrites s r v) :
    step s = writeReg r v (hostGoto (s.host.pc + 1) (dropTurn s)) := by
  obtain ⟨hturn, off, width, val, hfetch, htarget, rfl⟩ := h
  have hfetch' : hostFetch (dropTurn s) = some (.write off width val) := hfetch
  simp only [step, hturn, takeTurn, hostTurn, hfetch', hostInstr, busWrite, htarget]
  rfl

theorem placeCommand_hostWrites (c : Word) (s : State) : HostWrites (placeCommand c s) .cmd c :=
  ⟨rfl, _, _, _, rfl, busTarget_off .cmd, rfl⟩

theorem withFetchWord_word (s : State) (c : Word) : s.withFetchWord 32 c.toNat = placeCommand c s := by
  rw [State.withFetchWord, BitVec.toNat_mod_cancel, BitVec.ofNat_toNat, BitVec.setWidth_eq]

/-- Settles O56: a host write of a legal word to `CMD` is `exec` of it; the placed word is such a write. -/
theorem stepRunsTheDecodedCommand : Obligations.StepRunsTheDecodedCommand := by
  have hrun (s : State) (c : Word) (i : Instr) (hw : HostWrites s .cmd c) (hd : decode c = .ok i) :
      step s = exec i (hostGoto (s.host.pc + 1) (dropTurn s)) := by
    rw [step_eq_writeReg hw, writeReg_cmd_of_decode hd]
  refine ⟨hrun, fun s i hwf => ?_⟩
  rw [withFetchWord_word, hrun _ _ i (placeCommand_hostWrites _ s) (decode_encode hwf)]
  rfl

end Sys2Proof.Machine
end

section
/-! PROOFS. The statements of 10_state.md: what each register reads, what alone changes each field of the state, and the
invariant that every step keeps. -/

namespace Sys2Proof.Machine

/-! ### Fields after an acceptance and after a completion (10_state.md R36) -/

@[simp] theorem acceptedState_overrun (i : Instr) (s : State) : (acceptedState i s).overrun = s.overrun := by cases i <;> rfl
@[simp] theorem acceptedState_err (i : Instr) (s : State) : (acceptedState i s).err = .noError := by cases i <;> rfl
@[simp] theorem acceptedState_key (i : Instr) (s : State) : (acceptedState i s).key = s.key := by cases i <;> rfl
@[simp] theorem acceptedState_data (i : Instr) (s : State) : (acceptedState i s).data = s.data := by cases i <;> rfl
@[simp] theorem acceptedState_arg (i : Instr) (s : State) : (acceptedState i s).arg = s.arg := by cases i <;> rfl
@[simp] theorem acceptedState_res (i : Instr) (s : State) : (acceptedState i s).res = s.res := by cases i <;> rfl
@[simp] theorem acceptedState_rk (i : Instr) (s : State) : (acceptedState i s).rk = s.rk := by cases i <;> rfl
@[simp] theorem acceptedState_busy (i : Instr) (s : State) : (acceptedState i s).busy = true := by cases i <;> rfl

@[simp] theorem complete_overrun (p : Pending) (s : State) : (complete p s).overrun = s.overrun := by cases p <;> rfl
@[simp] theorem complete_err (p : Pending) (s : State) : (complete p s).err = s.err := by cases p <;> rfl
@[simp] theorem complete_key (p : Pending) (s : State) : (complete p s).key = s.key := by cases p <;> rfl
@[simp] theorem complete_arg (p : Pending) (s : State) : (complete p s).arg = s.arg := by cases p <;> rfl
@[simp] theorem complete_pend (p : Pending) (s : State) : (complete p s).pend = none := by cases p <;> rfl
@[simp] theorem complete_busy (p : Pending) (s : State) : (complete p s).busy = false := by cases p <;> rfl

/-! ### The checks of an accepted command (60_exceptions.md R202) -/

theorem lengthCheck_eq_none {code : Err} {len : Nat} : lengthCheck code len = none ↔ len = 16 := by
  simp [lengthCheck]

theorem keyValid_of_blockChecks {len : Nat} {s : State} (h : blockChecks len s = none) : s.keyValid = true := by
  unfold blockChecks at h
  split at h
  · cases h
  · simpa [keyCheck] using h

/-! ### The invariant (10_state.md R22, R24, R26, R36) -/

/-- The host side is no part of the invariant. -/
theorem engineInv_withHostSide {s : State} (h : EngineInv s) (t : State) : EngineInv (withHostSide s t) :=
  ⟨h.pending, h.errWhileBusy, h.schedule⟩

theorem engineInv_with_overrun {s : State} (h : EngineInv s) (b : Bool) : EngineInv { s with overrun := b } :=
  ⟨h.pending, h.errWhileBusy, h.schedule⟩

/-- While BUSY = 0 only the schedule clause says anything. -/
theorem engineInv_of_idle {s : State} (hp : s.pend = none)
    (hs : s.keyValid = true → ∃ key, s.rk = keySchedule key) : EngineInv s where
  pending := by rw [PendingAgrees, hp]; trivial
  errWhileBusy hb := by rw [(busy_eq_false s).2 hp] at hb; cases hb
  schedule := hs

theorem engineInv_acceptedState {i : Instr} {s : State} (h : EngineInv s) (hc : execCheck i s = none) :
    EngineInv (acceptedState i s) := by
  cases i with
  | ks len => exact ⟨⟨rfl, rfl⟩, fun _ => rfl, fun hk => nomatch hk⟩
  | enc len => exact ⟨⟨rfl, keyValid_of_blockChecks hc⟩, fun _ => rfl, h.schedule⟩
  | dec len => exact ⟨⟨rfl, keyValid_of_blockChecks hc⟩, fun _ => rfl, h.schedule⟩
  | t => exact ⟨rfl, fun _ => rfl, h.schedule⟩
  | tp => exact ⟨rfl, fun _ => rfl, h.schedule⟩

theorem engineInv_complete {s : State} (h : EngineInv s) (p : Pending) : EngineInv (complete p s) := by
  refine engineInv_of_idle (complete_pend p s) ?_
  cases p with
  | ks key => exact fun _ => ⟨key, rfl⟩
  | _ => exact h.schedule

theorem engineInv_resetTurn (s : State) : EngineInv (resetTurn s) := engineInv_of_idle rfl fun hk => nomatch hk

theorem engineInv_write {s u : State} {r : Reg} {v : Word} (h : EngineInv s) (e : WriteEffect s r v u) :
    EngineInv u := by
  cases e with
  | status => exact engineInv_with_overrun h _
  | dropped => exact engineInv_with_overrun h true
  | rejected code hr hb => exact engineInv_of_idle ((busy_eq_false s).1 hb) h.schedule
  | accepted i hr hb hd hf => exact engineInv_acceptedState h (by rw [← firstFailing_ok hd, hf])
  | key n hr hb => exact engineInv_of_idle ((busy_eq_false s).1 hb) h.schedule
  | data n hr hb => exact engineInv_of_idle ((busy_eq_false s).1 hb) h.schedule
  | arg hr hb => exact engineInv_of_idle ((busy_eq_false s).1 hb) h.schedule
  | ignored => exact h

/-- Settles O47: each effect a step can have on SM4E's own state keeps the invariant. -/
theorem stepKeepsInvariant : Obligations.StepKeepsInvariant := by
  intro s u h hstep
  obtain ⟨w, e, hw⟩ := step_cases hstep
  rw [← hw]
  refine engineInv_withHostSide ?_ u
  cases e with
  | quiet => exact h
  | write r v _ _ he => exact engineInv_write h he
  | complete p => exact engineInv_complete h p
  | noCommand => exact h
  | reset => exact engineInv_resetTurn s

/-- Settles O48: after reset BUSY = 0 and KEY_VALID = 0. -/
theorem invariantHoldsAtReset : Obligations.InvariantHoldsAtReset := engineInv_resetTurn State.reset

/-! ### Reads (10_state.md R22, R27 to R32; 20_memory.md R60) -/

/-- The registers a command in flight will write (10_state.md R31). -/
theorem pendingWrites_eq_true {p : Pending} {r : Reg} : pendingWrites p r = true ↔
    (∃ d, p = .enc d ∨ p = .dec d) ∧ (∃ n, r = .data n) ∨ (∃ a, p = .t a ∨ p = .tp a) ∧ r = .res := by
  cases p <;> cases r <;> simp [pendingWrites]

theorem readOpen_eq_true {r : Reg} {s : State} :
    readOpen r s = true ↔ ∃ p, s.pend = some p ∧ pendingWrites p r = true := by
  unfold readOpen
  split <;> simp [*]

theorem busRead_open {r : Reg} {s : State} (t : Nat) (h : readOpen r s = true) :
    busRead r.off 4 t s = .next (setVar t (Config.freeWord s.draws) { s with draws := s.draws + 1 }) := by
  rw [busRead_off, readReg, afterRead, if_pos h, if_pos h]

theorem busRead_closed {r : Reg} {s : State} (t : Nat) (h : readOpen r s = false) :
    busRead r.off 4 t s = .next (setVar t (regValue r s) s) := by
  rw [busRead_off, readReg_of_closed h, afterRead_of_closed h]

/-- `DATA` reads as its value unless an SM4.ENC or SM4.DEC is in flight. -/
theorem readOpen_data {s : State} (n : Fin 4) (he : ∀ d, s.pend ≠ some (.enc d)) (hd : ∀ d, s.pend ≠ some (.dec d)) :
    readOpen (.data n) s = false := by
  rw [Bool.eq_false_iff, ne_eq, readOpen_eq_true]
  rintro ⟨p, hp, hw⟩
  obtain ⟨⟨d, rfl | rfl⟩, -⟩ | ⟨-, hr⟩ := pendingWrites_eq_true.1 hw
  · exact he d hp
  · exact hd d hp
  · cases hr

/-- `RES` reads as its value unless an SM4.T or SM4.TP is in flight. -/
theorem readOpen_res {s : State} (ht : ∀ a, s.pend ≠ some (.t a)) (htp : ∀ a, s.pend ≠ some (.tp a)) :
    readOpen .res s = false := by
  rw [Bool.eq_false_iff, ne_eq, readOpen_eq_true]
  rintro ⟨p, hp, hw⟩
  obtain ⟨-, n, hr⟩ | ⟨⟨a, rfl | rfl⟩, -⟩ := pendingWrites_eq_true.1 hw
  · cases hr
  · exact ht a hp
  · exact htp a hp

theorem keyValid_of_ks_pending {s : State} {key : Quad} (h : EngineInv s) (hp : s.pend = some (.ks key)) :
    s.keyValid = false := by
  have hagree := h.pending
  rw [PendingAgrees, hp] at hagree
  exact hagree.2

/-- Settles O16: a register is open exactly when the command in flight will write it. -/
theorem readsDuringFlight : Obligations.ReadsDuringFlight := by
  intro s t
  refine ⟨fun d hp n => busRead_open t ?_, fun a hp => busRead_open (r := .res) t ?_,
    fun p r hp hdata hres => busRead_closed t ?_, fun key hinv hp n => ?_⟩
  · rcases hp with hp | hp <;> exact readOpen_eq_true.2 ⟨_, hp, rfl⟩
  · rcases hp with hp | hp <;> exact readOpen_eq_true.2 ⟨_, hp, rfl⟩
  · rw [Bool.eq_false_iff, ne_eq, readOpen_eq_true]
    rintro ⟨q, hq, hw⟩
    cases hp.symm.trans hq
    obtain ⟨⟨d, hd⟩, n, hr⟩ | ⟨⟨a, ha⟩, hr⟩ := pendingWrites_eq_true.1 hw
    · exact hdata d hd n hr
    · exact hres a ha hr
  · rw [busRead_closed t (readOpen_rk n s), regValue, keyValid_of_ks_pending hinv hp]
    rfl

theorem readOpen_with_key (r : Reg) (s : State) (key : Quad) : readOpen r { s with key := key } = readOpen r s := rfl

theorem regValue_with_key (r : Reg) (s : State) (key : Quad) : regValue r { s with key := key } = regValue r s := by
  cases r <;> rfl

theorem readReg_with_key (r : Reg) (s : State) (key : Quad) : readReg r { s with key := key } = readReg r s := by
  rw [readReg, readReg, readOpen_with_key, regValue_with_key]

theorem afterRead_with_key (r : Reg) (s : State) (key : Quad) :
    afterRead r { s with key := key } = { afterRead r s with key := key } := by
  rw [afterRead, afterRead, readOpen_with_key]
  split <;> rfl

/-- Settles O15: neither the register reached, nor its value, nor the draw depends on `KEY`. -/
theorem keyIsNeverObservedByReads : Obligations.KeyIsNeverObservedByReads := by
  intro s key off width t
  unfold busRead
  cases busTarget off width with
  | none => exact ⟨fun u => nofun, fun f h => h⟩
  | some r =>
    refine ⟨fun u h => ?_, fun f => nofun⟩
    simp only [readReg_with_key, afterRead_with_key]
    cases h
    rfl

/-! ### `STATUS` and `RK` in the window (10_state.md R22, R32) -/

theorem writeReg_status (v : Word) (s : State) : writeReg .status v s = .next (writeStatus v s) := rfl

theorem writeReg_idle {r : Reg} (v : Word) {s : State} (hr : r ≠ .status) (hb : s.busy = false) :
    writeReg r v s = writeIdle r v s := by
  simp [writeReg, hr, hb]

theorem busWrite_idle {r : Reg} (v : Word) {s : State} (hr : r ≠ .status) (hb : s.busy = false) :
    busWrite r.off 4 v s = writeIdle r v s := by
  rw [busWrite_off, writeReg_idle v hr hb]

/-- The bits of `STATUS` above its three flags. -/
theorem statusWord_above_flags {i len : Nat} (s : State) (h : 3 ≤ i) :
    (statusWord s).extractLsb' i len = (0#20 ++ errCode s.err ++ 0#5).extractLsb' (i - 3) len := by
  rw [statusWord, BitVec.extractLsb'_append_eq_of_le (by omega), BitVec.extractLsb'_append_eq_of_le (by omega),
    BitVec.extractLsb'_append_eq_of_le (by omega), Nat.sub_sub, Nat.sub_sub]

theorem statusWord_flags (s : State) : (statusWord s).getLsbD 0 = s.busy ∧ (statusWord s).getLsbD 1 = s.keyValid ∧
    (statusWord s).getLsbD 2 = s.overrun := by
  simp only [statusWord, BitVec.getLsbD_append]
  simp

theorem statusWord_err (s : State) : (statusWord s).extractLsb' 8 4 = errCode s.err := by
  rw [statusWord_above_flags s (by decide), BitVec.extractLsb'_append_eq_of_le (by decide),
    BitVec.extractLsb'_append_eq_of_add_le (by decide), BitVec.extractLsb'_eq_self]

theorem statusWord_zeros (s : State) : (statusWord s).extractLsb' 3 5 = 0#5 ∧ (statusWord s).extractLsb' 12 20 = 0#20 := by
  constructor
  · rw [statusWord_above_flags s (by decide), BitVec.extractLsb'_append_eq_of_add_le (by decide),
      BitVec.extractLsb'_eq_self]
  · rw [statusWord_above_flags s (by decide), BitVec.extractLsb'_append_eq_of_le (by decide),
      BitVec.extractLsb'_append_eq_of_le (by decide), BitVec.extractLsb'_eq_self]

/-- Settles O18: the fields of `STATUS` are the parts of `statusWord`, and a write of it is `writeStatus`. -/
theorem statusWordFields : Obligations.StatusWordFields := by
  intro s v t
  obtain ⟨hbusy, hkeyValid, hoverrun⟩ := statusWord_flags s
  obtain ⟨hlow, hhigh⟩ := statusWord_zeros s
  exact ⟨busRead_closed (r := .status) t (readOpen_status s), hbusy, hkeyValid, hoverrun, statusWord_err s, hlow, hhigh,
    busWrite_off .status v s⟩

theorem rkOff_toNat (n : Fin 32) : BitVec.toNat (Reg.off (.rk n)) = 0x80 + 4 * n.val := by
  rw [Reg.off, BitVec.toNat_ofNat, Nat.mod_eq_of_lt (by omega)]

theorem rkWord_eq_quadGet (rk : RoundKeys) {n : Fin 32} {g : Fin 8} {j : Fin 4} (hg : n.val / 4 = g.val)
    (hj : n.val % 4 = j.val) : rkWord rk n = quadGet (rkGroup rk g) j := by
  rw [rkWord, hg, hj, Fin.ofNat_eq_cast, Fin.ofNat_eq_cast, Fin.cast_val_eq_self, Fin.cast_val_eq_self]

theorem writeEffect_rk {s u : State} {r : Reg} {v : Word} (e : WriteEffect s r v u) : u.rk = s.rk := by
  cases e with
  | accepted i => exact acceptedState_rk i s
  | _ => rfl

/-- Settles O17: `RK[n]` is never open to a read and never written by the host. -/
theorem roundKeyWindow : Obligations.RoundKeyWindow := by
  intro s n t v
  obtain ⟨u, hu⟩ := writeReg_answers (.rk n) v s
  exact ⟨rkOff_toNat n, fun g j => rkWord_eq_quadGet s.rk, busRead_closed t (readOpen_rk n s),
    busWrite_idle (r := .rk n) v nofun,
    u, by rw [busWrite_off, hu], writeEffect_rk (writeReg_cases hu)⟩

/-! ### What a step does, field by field -/

/-- Where a field of SM4E's own state stands after a step: unchanged, or as the host write, the completion or the reset
leaves it. -/
theorem step_field_cases {α : Type} (f : State → α) (hf : ∀ s t, f (withHostSide s t) = f s) {s u : State}
    (h : step s = .next u) :
    f u = f s ∨ (∃ r v w, HostWrites s r v ∧ WriteEffect s r v w ∧ f u = f w) ∨
      (∃ p, Completes s p ∧ f u = f (complete p s)) ∨ (Resets s ∧ f u = f (resetTurn s)) := by
  obtain ⟨w, e, hw⟩ := step_cases h
  have hfu : f u = f w := by rw [← hf w u, hw]
  cases e with
  | quiet => exact .inl hfu
  | write r v _ hwrite he => exact .inr (.inl ⟨r, v, w, hwrite, he, hfu⟩)
  | complete p hc => exact .inr (.inr (.inl ⟨p, hc, hfu⟩))
  | noCommand => exact .inl hfu
  | reset hr => exact .inr (.inr (.inr ⟨hr, hfu⟩))

theorem step_busy_cases {s u : State} (h : step s = .next u) :
    u.busy = s.busy ∨ (u.busy = true ∧ ∃ c, Accepts s c) ∨
      (u.busy = false ∧ ((∃ p, Completes s p) ∨ Resets s)) := by
  obtain hu | ⟨r, v, w, hw, he, hu⟩ | ⟨p, hc, hu⟩ | ⟨hr, hu⟩ := step_field_cases State.busy (fun _ _ => rfl) h
  · exact .inl hu
  · cases he with
    | accepted i hr hb _ hf => exact .inr (.inl ⟨hu.trans (acceptedState_busy i s), v, hr ▸ hw, hb, hf⟩)
    | _ => exact .inl hu
  · exact .inr (.inr ⟨hu.trans (complete_busy p s), .inl ⟨p, hc⟩⟩)
  · exact .inr (.inr ⟨hu, .inr hr⟩)

theorem execCheck_ks_eq_none {len : Nat} {s : State} (h : execCheck (.ks len) s = none) : len = 16 :=
  lengthCheck_eq_none.1 h

theorem step_keyValid_cases {s u : State} (h : step s = .next u) :
    u.keyValid = s.keyValid ∨
      (u.keyValid = false ∧ ((∃ c, Accepts s c ∧ decode c = .ok (.ks 16)) ∨ Resets s)) ∨
      (u.keyValid = true ∧ ∃ key, Completes s (.ks key)) := by
  obtain hu | ⟨r, v, w, hw, he, hu⟩ | ⟨p, hc, hu⟩ | ⟨hr, hu⟩ := step_field_cases State.keyValid (fun _ _ => rfl) h
  · exact .inl hu
  · cases he with
    | accepted i hr hb hd hf =>
      cases i with
      | ks len =>
        obtain rfl := execCheck_ks_eq_none ((firstFailing_ok hd s).symm.trans hf)
        exact .inr (.inl ⟨hu, .inl ⟨v, ⟨hr ▸ hw, hb, hf⟩, hd⟩⟩)
      | _ => exact .inl hu
    | _ => exact .inl hu
  · cases p with
    | ks key => exact .inr (.inr ⟨hu, key, hc⟩)
    | _ => exact .inl hu
  · exact .inr (.inl ⟨hu, .inr hr⟩)

theorem step_overrun_cases {s u : State} (h : step s = .next u) :
    u.overrun = s.overrun ∨ (∃ r v, HostWrites s r v ∧ r ≠ .status ∧ s.busy = true) ∨
      (∃ v, HostWrites s .status v ∧ v.getLsbD 2 = true) ∨ Resets s := by
  obtain hu | ⟨r, v, w, hw, he, hu⟩ | ⟨p, -, hu⟩ | ⟨hr, -⟩ := step_field_cases State.overrun (fun _ _ => rfl) h
  · exact .inl hu
  · cases he with
    | status hr =>
      cases hv : v.getLsbD 2 with
      | true => exact .inr (.inr (.inl ⟨v, hr ▸ hw, hv⟩))
      | false => exact .inl (by rw [hu, writeStatus_overrun, hv, if_neg Bool.false_ne_true])
    | dropped hr hb => exact .inr (.inl ⟨r, v, hw, hr, hb⟩)
    | accepted i => exact .inl (hu.trans (acceptedState_overrun i s))
    | _ => exact .inl hu
  · exact .inl (hu.trans (complete_overrun p s))
  · exact .inr (.inr (.inr hr))

theorem step_err_cases {s u : State} (h : step s = .next u) :
    u.err = s.err ∨ (∃ c, Accepts s c) ∨ (∃ c code, Rejects s c code) ∨ Resets s := by
  obtain hu | ⟨r, v, w, hw, he, hu⟩ | ⟨p, -, hu⟩ | ⟨hr, -⟩ := step_field_cases State.err (fun _ _ => rfl) h
  · exact .inl hu
  · cases he with
    | rejected code hr hb hf => exact .inr (.inr (.inl ⟨v, code, hr ▸ hw, hb, hf⟩))
    | accepted i hr hb _ hf => exact .inr (.inl ⟨v, hr ▸ hw, hb, hf⟩)
    | _ => exact .inl hu
  · exact .inl (hu.trans (complete_err p s))
  · exact .inr (.inr (.inr hr))

theorem step_key_cases {s u : State} (h : step s = .next u) :
    u.key = s.key ∨ (∃ n v, HostWrites s (.key n) v ∧ s.busy = false) ∨ Resets s := by
  obtain hu | ⟨r, v, w, hw, he, hu⟩ | ⟨p, -, hu⟩ | ⟨hr, -⟩ := step_field_cases State.key (fun _ _ => rfl) h
  · exact .inl hu
  · cases he with
    | accepted i => exact .inl (hu.trans (acceptedState_key i s))
    | key n hr hb => exact .inr (.inl ⟨n, v, hr ▸ hw, hb⟩)
    | _ => exact .inl hu
  · exact .inl (hu.trans (complete_key p s))
  · exact .inr (.inr hr)

theorem step_data_cases {s u : State} (h : step s = .next u) :
    u.data = s.data ∨ (∃ n v, HostWrites s (.data n) v ∧ s.busy = false) ∨
      (∃ block, Completes s (.enc block) ∨ Completes s (.dec block)) ∨ Resets s := by
  obtain hu | ⟨r, v, w, hw, he, hu⟩ | ⟨p, hc, hu⟩ | ⟨hr, -⟩ := step_field_cases State.data (fun _ _ => rfl) h
  · exact .inl hu
  · cases he with
    | accepted i => exact .inl (hu.trans (acceptedState_data i s))
    | data n hr hb => exact .inr (.inl ⟨n, v, hr ▸ hw, hb⟩)
    | _ => exact .inl hu
  · cases p with
    | enc block => exact .inr (.inr (.inl ⟨block, .inl hc⟩))
    | dec block => exact .inr (.inr (.inl ⟨block, .inr hc⟩))
    | _ => exact .inl hu
  · exact .inr (.inr (.inr hr))

theorem step_arg_cases {s u : State} (h : step s = .next u) :
    u.arg = s.arg ∨ (∃ v, HostWrites s .arg v ∧ s.busy = false) ∨ Resets s := by
  obtain hu | ⟨r, v, w, hw, he, hu⟩ | ⟨p, -, hu⟩ | ⟨hr, -⟩ := step_field_cases State.arg (fun _ _ => rfl) h
  · exact .inl hu
  · cases he with
    | accepted i => exact .inl (hu.trans (acceptedState_arg i s))
    | arg hr hb => exact .inr (.inl ⟨v, hr ▸ hw, hb⟩)
    | _ => exact .inl hu
  · exact .inl (hu.trans (complete_arg p s))
  · exact .inr (.inr hr)

theorem writeEffect_res {s u : State} {r : Reg} {v : Word} (e : WriteEffect s r v u) : u.res = s.res := by
  cases e with
  | accepted i => exact acceptedState_res i s
  | _ => rfl

theorem step_res_cases {s u : State} (h : step s = .next u) :
    u.res = s.res ∨ (∃ a, Completes s (.t a) ∨ Completes s (.tp a)) ∨ Resets s := by
  obtain hu | ⟨r, v, w, -, he, hu⟩ | ⟨p, hc, hu⟩ | ⟨hr, -⟩ := step_field_cases State.res (fun _ _ => rfl) h
  · exact .inl hu
  · exact .inl (hu.trans (writeEffect_res he))
  · cases p with
    | t a => exact .inr (.inl ⟨a, .inl hc⟩)
    | tp a => exact .inr (.inl ⟨a, .inr hc⟩)
    | _ => exact .inl hu
  · exact .inr (.inr hr)

theorem step_rk_cases {s u : State} (h : step s = .next u) :
    u.rk = s.rk ∨ (∃ key, Completes s (.ks key)) ∨ Resets s := by
  obtain hu | ⟨r, v, w, -, he, hu⟩ | ⟨p, hc, hu⟩ | ⟨hr, -⟩ := step_field_cases State.rk (fun _ _ => rfl) h
  · exact .inl hu
  · exact .inl (hu.trans (writeEffect_rk he))
  · cases p with
    | ks key => exact .inr (.inl ⟨key, hc⟩)
    | _ => exact .inl hu
  · exact .inr (.inr hr)

/-! ### Steps named by what the host writes -/

/-- The state in which a step's host write reaches SM4E: the turn used up, the host at its next instruction. -/
abbrev atHostWrite (s : State) : State := hostGoto (s.host.pc + 1) (dropTurn s)

theorem step_dropsWrite {s : State} {r : Reg} {v : Word} (hw : HostWrites s r v) (hr : r ≠ .status)
    (hb : s.busy = true) : step s = .next (dropWrite (atHostWrite s)) := by
  rw [step_eq_writeReg hw]
  exact writeReg_busy hr hb

theorem step_writesStatus {s : State} {v : Word} (hw : HostWrites s .status v) :
    step s = .next (writeStatus v (atHostWrite s)) := by
  rw [step_eq_writeReg hw]
  exact writeReg_status v _

theorem step_writesIdle {s : State} {r : Reg} {v : Word} (hw : HostWrites s r v) (hr : r ≠ .status)
    (hb : s.busy = false) : step s = writeIdle r v (atHostWrite s) := by
  rw [step_eq_writeReg hw]
  exact writeReg_idle v hr hb

theorem issueCommand_rejects {c : Word} {s : State} {code : Err} (hb : s.busy = false)
    (hf : firstFailing c s = some code) : issueCommand c s = .next (raiseCmdError code s) := by
  unfold issueCommand
  cases hd : decode c with
  | error e =>
    rw [firstFailing_illegal hd] at hf
    cases hf
    rfl
  | ok i => exact (exec_eq_issue i s).trans (by rw [← firstFailing_ok hd, hf, issue_rejects code hb])

theorem issueCommand_accepts {c : Word} {s : State} (hb : s.busy = false) (hf : firstFailing c s = none) :
    ∃ i, decode c = .ok i ∧ issueCommand c s = .next (acceptedState i s) := by
  unfold issueCommand
  cases hd : decode c with
  | error e =>
    rw [firstFailing_illegal hd] at hf
    cases hf
  | ok i => exact ⟨i, rfl, (exec_eq_issue i s).trans (by rw [← firstFailing_ok hd, hf, issue_accepts hb])⟩

theorem step_rejects {s : State} {c : Word} {code : Err} (h : Rejects s c code) :
    step s = .next (raiseCmdError code (atHostWrite s)) := by
  obtain ⟨hw, hb, hf⟩ := h
  rw [step_writesIdle hw (by decide) hb]
  exact issueCommand_rejects hb hf

theorem step_accepts {s : State} {c : Word} (h : Accepts s c) :
    ∃ i, decode c = .ok i ∧ step s = .next (acceptedState i (atHostWrite s)) := by
  obtain ⟨hw, hb, hf⟩ := h
  rw [step_writesIdle hw (by decide) hb]
  exact issueCommand_accepts (s := atHostWrite s) hb hf

/-! ### The flags (10_state.md R23 to R26) -/

/-- Settles O39: a step that moves BUSY is an acceptance, a completion or a reset, and each of these moves it. -/
theorem busyChangesOnlySo : Obligations.BusyChangesOnlySo := by
  intro s u h
  refine ⟨fun hs hu => ?_, fun hs hu => ?_, fun c ha => ?_, fun p hc => ?_, fun hr => ?_, fun v hw => ?_⟩
  · obtain he | ⟨-, ha⟩ | ⟨hu', -⟩ := step_busy_cases h
    · rw [he, hs] at hu
      cases hu
    · exact ha
    · cases hu.symm.trans hu'
  · obtain he | ⟨hu', -⟩ | ⟨-, hcr⟩ := step_busy_cases h
    · rw [he, hs] at hu
      cases hu
    · cases hu.symm.trans hu'
    · exact hcr
  · obtain ⟨i, -, hstep⟩ := step_accepts ha
    cases hstep.symm.trans h
    exact acceptedState_busy i _
  · rw [← step_of_completes h hc]
    exact complete_busy p s
  · rw [← step_of_resets h hr]
    rfl
  · cases (step_writesStatus hw).symm.trans h
    rfl

/-- Settles O40: a step that moves KEY_VALID is an acceptance or the completion of SM4.KS, or a reset, and each of these
moves it. -/
theorem keyValidChangesOnlySo : Obligations.KeyValidChangesOnlySo := by
  intro s u h
  refine ⟨fun hs hu => ?_, fun hs hu => ?_, fun c len ha hd => ?_, fun key hc => ?_, fun hr => ?_,
    fun c len code hr _ => ?_⟩
  · obtain he | ⟨-, har⟩ | ⟨hu', -⟩ := step_keyValid_cases h
    · rw [he, hs] at hu
      cases hu
    · exact har
    · cases hu.symm.trans hu'
  · obtain he | ⟨hu', -⟩ | ⟨-, hc⟩ := step_keyValid_cases h
    · rw [he, hs] at hu
      cases hu
    · cases hu.symm.trans hu'
    · exact hc
  · obtain ⟨i, hi, hstep⟩ := step_accepts ha
    cases hi.symm.trans hd
    cases hstep.symm.trans h
    rfl
  · rw [← step_of_completes h hc]
    rfl
  · rw [← step_of_resets h hr]
    rfl
  · cases (step_rejects hr).symm.trans h
    rfl

/-- Settles O41: a step that moves OVERRUN is a dropped write, a `STATUS` write with bit 2 or a reset. -/
theorem overrunChangesOnlySo : Obligations.OverrunChangesOnlySo := by
  intro s u h
  refine ⟨fun r v hw hr hb => ?_, fun v hw => ?_, fun hr => ?_, (step_overrun_cases h).resolve_left⟩
  · cases (step_dropsWrite hw hr hb).symm.trans h
    rfl
  · cases (step_writesStatus hw).symm.trans h
    rfl
  · rw [← step_of_resets h hr]
    rfl

/-- Codes 5 to 15 have no name, so no state holds one (60_exceptions.md R202). -/
theorem errCode_le (e : Err) : errCode e ≤ 4#4 := by
  cases e <;> decide

/-- Settles O42: a step that moves ERR is an acceptance, a rejection or a reset. -/
theorem errChangesOnlySo : Obligations.ErrChangesOnlySo := by
  intro s u h
  refine ⟨fun c ha => ?_, fun c code hr => ?_, fun c hw hb => ?_, fun p hc => ?_, fun hr => ?_,
    (step_err_cases h).resolve_left, errCode_le u.err⟩
  · obtain ⟨i, -, hstep⟩ := step_accepts ha
    cases hstep.symm.trans h
    exact acceptedState_err i _
  · cases (step_rejects hr).symm.trans h
    rfl
  · cases (step_dropsWrite hw (by decide) hb).symm.trans h
    rfl
  · have he : u.err = s.err := by
      rw [← step_of_completes h hc]
      exact complete_err p s
    exact ⟨he, fun hinv => he.trans (hinv.errWhileBusy ((busy_eq_true s).2 ⟨p, hc.2⟩))⟩
  · rw [← step_of_resets h hr]
    rfl

/-! ### The operand and result registers (10_state.md R27 to R30, R33) -/

/-- Settles O43: of the host's writes only one to the register itself moves `KEY` or `DATA`. -/
theorem keyAndDataChangeOnlySo : Obligations.KeyAndDataChangeOnlySo := by
  refine ⟨fun s t he hd => ?_, fun s v hb => ?_, fun s u h => ⟨fun n v hw hb => ?_, (step_key_cases h).resolve_left,
    fun n v hw hb => ?_, (step_data_cases h).resolve_left⟩⟩
  · have hread (n : Fin 4) := busRead_closed t (readOpen_data n he hd)
    exact ⟨hread 0, hread 1, hread 2, hread 3⟩
  · have hkey (n : Fin 4) := busWrite_idle (r := .key n) v nofun hb
    have hdata (n : Fin 4) := busWrite_idle (r := .data n) v nofun hb
    exact ⟨hkey 0, hkey 1, hkey 2, hkey 3, hdata 0, hdata 1, hdata 2, hdata 3⟩
  · cases (step_writesIdle hw nofun hb).symm.trans h
    rfl
  · cases (step_writesIdle hw nofun hb).symm.trans h
    rfl

/-- Settles O44: no command writes `ARG`, and SM4.T and SM4.TP take it into `pend`. -/
theorem argChangesOnlySo : Obligations.ArgChangesOnlySo := by
  refine ⟨fun s t v => ⟨busRead_closed (r := .arg) t (readOpen_arg s), busWrite_idle (r := .arg) v nofun,
    fun hb => ⟨issue_accepts hb, issue_accepts hb⟩⟩, fun s u h => ⟨(step_arg_cases h).resolve_left, fun hr => ?_⟩⟩
  rw [← step_of_resets h hr]
  rfl

/-- Settles O45: `RES` is written by no host access and by no completion but that of SM4.T or SM4.TP. -/
theorem resChangesOnlySo : Obligations.ResChangesOnlySo := by
  refine ⟨fun s t ht htp => busRead_closed (r := .res) t (readOpen_res ht htp),
    fun s v hb => busWrite_idle (r := .res) v nofun hb,
    fun s u h => ⟨fun a hc => ?_, fun a hc => ?_, (step_res_cases h).resolve_left⟩⟩
  · rw [← step_of_completes h hc]
    rfl
  · rw [← step_of_completes h hc]
    rfl

/-- Settles O46: the completion of SM4.KS replaces the file, and no write and no other completion touches it. -/
theorem onlyKsCompletionWritesRoundKeys : Obligations.OnlyKsCompletionWritesRoundKeys := by
  refine fun s u h => ⟨fun key hc n => ?_, (step_rk_cases h).resolve_left⟩
  rw [← step_of_completes h hc]
  rfl

end Sys2Proof.Machine
end

section
/-! PROOFS. The statements of 20_memory.md: the register map (R51 to R54), BusError (R55), what a write does (R56, R57),
and that a read does nothing (R60). -/

namespace Sys2Proof.Machine

/-! ### The register map (20_memory.md R51) -/

/-- Settles O9: the map is inverted by `Reg.off`, whose values stay inside the window. -/
theorem windowMapIsExact : Obligations.WindowMapIsExact := by
  refine ⟨busTarget_off, fun off width r h => ?_, ⟨rfl, rfl, rfl, rfl⟩, fun n => ?_, rkOff_toNat⟩
  · obtain ⟨rfl, -⟩ := busTarget_width h
    exact ⟨rfl, (off_of_busTarget off r h).symm⟩
  · constructor <;> rw [Reg.off, BitVec.toNat_ofNat, Nat.mod_eq_of_lt (by omega)]

/-! ### BusError (20_memory.md R52 to R55) -/

/-- The accesses that reach no register, by width and offset. -/
theorem busTarget_eq_none {off : BitVec 8} {width : Nat} : busTarget off width = none ↔
    width ≠ 4 ∨ off.toNat % 4 ≠ 0 ∨ (0x08#8 ≤ off ∧ off < 0x10#8) ∨ (0x38#8 ≤ off ∧ off < 0x80#8) := by
  simp only [busTarget, BitVec.le_def, BitVec.lt_def, BitVec.toNat_ofNat]
  split
  · rw [regAtWord_eq_none]
    omega
  · simp only [true_iff]
    omega

theorem busWrite_of_no_target {off : BitVec 8} {width : Nat} (h : busTarget off width = none) (v : Word) (s : State) :
    busWrite off width v s = .fault (.busError (busAddr off)) := by
  rw [busWrite, h, raiseBusError]

theorem busRead_of_no_target {off : BitVec 8} {width : Nat} (h : busTarget off width = none) (t : Nat) (s : State) :
    busRead off width t s = .fault (.busError (busAddr off)) := by
  rw [busRead, h, raiseBusError]

/-- On the host's turn a step is the host's instruction, the turn used up and the host at its next instruction. -/
theorem step_eq_hostInstr {s : State} {hi : HostInstr} (hturn : nextTurn s = .host) (hfetch : hostFetch s = some hi) :
    step s = hostInstr hi (dropTurn s) := by
  have hfetch' : hostFetch (dropTurn s) = some hi := hfetch
  rw [step, hturn, takeTurn, hostTurn, hfetch']

/-- The converse of `step_stops`: a host access that reaches no register faults. -/
theorem step_of_no_target {s : State} {off : BitVec 8} {width : Nat} (hturn : nextTurn s = .host)
    (hfetch : (∃ v, hostFetch s = some (.write off width v)) ∨ ∃ t, hostFetch s = some (.read off width t))
    (h : busTarget off width = none) : step s = .fault (.busError (busAddr off)) := by
  obtain ⟨v, hf⟩ | ⟨t, hf⟩ := hfetch
  · rw [step_eq_hostInstr hturn hf]
    exact busWrite_of_no_target h _ _
  · rw [step_eq_hostInstr hturn hf]
    exact busRead_of_no_target h _ _

theorem step_never_refuses (s : State) (r : Refusal) : step s ≠ .refused r := by
  intro hr
  obtain ⟨-, off, width, -, hf, -⟩ := step_stops (s := s) fun t ht => nomatch hr.symm.trans ht
  cases hr.symm.trans hf

/-- Settles O11: a step that has no next state is a host access that reaches no register, and such an access faults. -/
theorem stepFaultsExactlyOnBadAccesses : Obligations.StepFaultsExactlyOnBadAccesses := by
  refine fun s => ⟨fun f => ⟨fun hf => ?_, ?_⟩, step_never_refuses s⟩
  · obtain ⟨hturn, off, width, hnone, hf', hfetch⟩ := step_stops (s := s) fun t ht => nomatch hf.symm.trans ht
    cases hf.symm.trans hf'
    exact ⟨hturn, off, width, hfetch, busTarget_eq_none.1 hnone, rfl⟩
  · rintro ⟨hturn, off, width, hfetch, hbad, rfl⟩
    exact step_of_no_target hturn hfetch (busTarget_eq_none.2 hbad)

/-- Settles O10: the offsets named are among those that reach no register. -/
theorem reservedOffsetsDrawBusError : Obligations.ReservedOffsetsDrawBusError := by
  intro s off v t _ hoff
  have hnone : busTarget off 4 = none := by
    rw [busTarget_eq_none]
    obtain rfl | rfl | ⟨hlow, hhigh⟩ := hoff
    · decide
    · decide
    · exact .inr (.inr (.inr ⟨hlow, by bv_omega⟩))
  exact ⟨busWrite_of_no_target hnone v s, busRead_of_no_target hnone t s⟩

/-! ### Writes (20_memory.md R56, R57, R61) -/

/-- Settles O12: BUSY = 1 drops a write to any register but `STATUS`; the map is consulted before that. -/
theorem busyWritesAreDropped : Obligations.BusyWritesAreDropped := by
  refine fun s v hb => ⟨fun r hr => ?_, fun off h => busWrite_of_no_target h v s, busWrite_off .status v s⟩
  rw [busWrite_off]
  exact writeReg_busy hr hb

/-- Settles O13: an idle write of `RES` or `RK[n]` is ignored; `CMD` and `KEY[n]` are never open to a read, and their
value in the window is 0. -/
theorem readOnlyAndWriteOnlyRegisters : Obligations.ReadOnlyAndWriteOnlyRegisters :=
  ⟨fun _ v hb => ⟨busWrite_idle (r := .res) v nofun hb, fun n => busWrite_idle (r := .rk n) v nofun hb⟩,
    fun s t => ⟨busRead_closed (r := .cmd) t (readOpen_cmd s), fun n => busRead_closed t (readOpen_key n s)⟩⟩

/-! ### Reads (20_memory.md R60) -/

theorem lookupVar_storeVar_same (vars : List (Nat × Word)) (h : Nat) (v : Word) :
    lookupVar (storeVar vars h v) h = v := by
  induction vars with
  | nil => simp [storeVar, lookupVar]
  | cons p rest ih =>
    obtain ⟨i, u⟩ := p
    by_cases hi : i = h
    · simp [storeVar, lookupVar, hi]
    · simp [storeVar, lookupVar, hi, ih]

@[simp] theorem hostVar_setVar_same (h : Nat) (v : Word) (s : State) : hostVar (setVar h v s) h = v :=
  lookupVar_storeVar_same s.host.vars h v

/-- No register's answer depends on the host's variables. -/
@[simp] theorem readReg_setVar (r : Reg) (h : Nat) (v : Word) (s : State) : readReg r (setVar h v s) = readReg r s := by
  cases r <;> rfl

/-- A read moves nothing but the draws. -/
theorem afterRead_frame (r : Reg) (s : State) : afterRead r s = { s with draws := (afterRead r s).draws } := by
  unfold afterRead
  split <;> rfl

/-- Settles O14: a read moves the draws and the reader's variable alone, and no register's answer depends on the
latter. -/
theorem readsHaveNoSideEffect : Obligations.ReadsHaveNoSideEffect := by
  intro s u r t h
  rw [busRead_off] at h
  cases h
  refine ⟨?_, fun hclosed => ?_⟩
  · rw [afterRead_frame]
    rfl
  · rw [afterRead_of_closed hclosed]
    exact ⟨setVar_draws _ _ _, hostVar_setVar_same _ _ _, readReg_setVar _ _ _ _⟩

/-! ### `STATUS` after a `CMD` write (20_memory.md R61) -/

theorem lengthCheck_ne_noError {code : Err} (h : code ≠ .noError) (len : Nat) :
    lengthCheck code len ≠ some .noError := by
  simp [lengthCheck, h]

theorem blockChecks_ne_noError (len : Nat) (s : State) : blockChecks len s ≠ some .noError := by
  unfold blockChecks
  split
  · next e he =>
    rw [← he]
    exact lengthCheck_ne_noError (by decide) len
  · simp [keyCheck]

/-- A check that fails reports a code of its own, never 0. -/
theorem firstFailing_ne_noError (c : Word) (s : State) : firstFailing c s ≠ some .noError := by
  cases hd : decode c with
  | error e => simp [firstFailing_illegal hd]
  | ok i =>
    rw [firstFailing_ok hd]
    cases i with
    | ks len => exact lengthCheck_ne_noError (by decide) len
    | enc len => exact blockChecks_ne_noError len s
    | dec len => exact blockChecks_ne_noError len s
    | t => exact nofun
    | tp => exact nofun

theorem errCode_ne_zero {e : Err} (h : e ≠ .noError) : errCode e ≠ 0#4 := by
  cases e with
  | noError => exact absurd rfl h
  | _ => decide

/-- Settles O19: an accepted command leaves BUSY = 1 and ERR = 0, a rejected one BUSY = 0 and its code. -/
theorem statusShowsTheIssueAtOnce : Obligations.StatusShowsTheIssueAtOnce := by
  intro s c hb
  have hwrite : busWrite 0x00#8 4 c s = issueCommand c s := busWrite_idle (r := .cmd) c nofun hb
  rw [hwrite]
  cases hf : firstFailing c s with
  | none =>
    obtain ⟨i, -, hissue⟩ := issueCommand_accepts hb hf
    refine ⟨_, hissue, fun _ => ⟨?_, ?_⟩, nofun⟩
    · rw [(statusWord_flags _).1, acceptedState_busy]
    · rw [statusWord_err, acceptedState_err, errCode]
  | some code =>
    refine ⟨_, issueCommand_rejects hb hf, nofun, fun e he => ?_⟩
    cases he
    refine ⟨?_, statusWord_err _, errCode_ne_zero fun hcode => firstFailing_ne_noError c s (hcode ▸ hf)⟩
    rw [(statusWord_flags _).1, raiseCmdError_busy, hb]

end Sys2Proof.Machine
end

section
/-! PROOFS. The statements of 30_encoding.md: decoding and encoding are inverse (R75, R76), which words are illegal (R77),
a wrong LEN (R78), and the words of the mnemonics (R79). -/

namespace Sys2Proof.Machine

/-! ### Encoding and decoding are inverse (30_encoding.md R75, R76) -/

/-- Settles O1: each command's encoding has the fields that decode to it, its LEN read back from bits 15:8. -/
theorem encodedCommandsDecodeBack : Obligations.EncodedCommandsDecodeBack := fun _ => decode_encode

/-- A word is the word of a pattern and a LEN when it has the pattern's fields and that LEN. -/
theorem eq_lenWord_of_fields {c p : Word} (hp : fieldLen p = 0#8) (h : fieldRz1 c = fieldRz1 p ∧
    fieldRz0 c = fieldRz0 p ∧ fieldDir c = fieldDir p ∧ fieldOp c = fieldOp p) :
    p ||| BitVec.ofNat 32 (fieldLen c).toNat <<< 8 = c := by
  obtain ⟨hrz1, hlen, hrz0, hdir, hop⟩ := lenWord_fields p hp (fieldLen c)
  obtain ⟨hrz1', hrz0', hdir', hop'⟩ := h
  rw [word_eq_iff_fields, hrz1, hlen, hrz0, hdir, hop]
  exact ⟨hrz1'.symm, rfl, hrz0'.symm, hdir'.symm, hop'.symm⟩

theorem wellFormed_of_decode {c : Word} {i : Instr} (h : decode c = .ok i) : WellFormed i := by
  have hlen : (fieldLen c).toNat < 256 := (fieldLen c).isLt
  cases i with
  | ks len => exact decide_eq_true (((decode_eq_ks c len).1 h).2 ▸ hlen)
  | enc len => exact decide_eq_true (((decode_eq_enc c len).1 h).2 ▸ hlen)
  | dec len => exact decide_eq_true (((decode_eq_dec c len).1 h).2 ▸ hlen)
  | t => rfl
  | tp => rfl

theorem encode_of_decode {c : Word} {i : Instr} (h : decode c = .ok i) : encode i = c := by
  cases i with
  | ks len =>
    obtain ⟨hf, rfl⟩ := (decode_eq_ks c len).1 h
    exact eq_lenWord_of_fields (p := 0x00000001#32) rfl hf
  | enc len =>
    obtain ⟨hf, rfl⟩ := (decode_eq_enc c len).1 h
    exact eq_lenWord_of_fields (p := 0x00000002#32) rfl hf
  | dec len =>
    obtain ⟨hf, rfl⟩ := (decode_eq_dec c len).1 h
    exact eq_lenWord_of_fields (p := 0x00000012#32) rfl hf
  | t =>
    obtain ⟨⟨hrz1, hrz0, hdir, hop⟩, hlen⟩ := (decode_eq_t c).1 h
    exact (word_eq_iff_fields _ _).2 ⟨hrz1.symm, hlen.symm, hrz0.symm, hdir.symm, hop.symm⟩
  | tp =>
    obtain ⟨⟨hrz1, hrz0, hdir, hop⟩, hlen⟩ := (decode_eq_tp c).1 h
    exact (word_eq_iff_fields _ _).2 ⟨hrz1.symm, hlen.symm, hrz0.symm, hdir.symm, hop.symm⟩

/-- Settles O2: the fields a decoded word has are those of the encoding, and a word is its fields. -/
theorem decodedWordsEncodeBack : Obligations.DecodedWordsEncodeBack :=
  fun _ _ h => ⟨wellFormed_of_decode h, encode_of_decode h⟩

/-! ### Mask and match (30_encoding.md R76) -/

/-- The row of a mnemonic with a LEN: its mask leaves LEN free, so some LEN decodes exactly when the other fields are the
pattern's. -/
theorem decode_iff_match_of_len {c p : Word} {f : Nat → Instr} (hp : fieldLen p = 0#8)
    (hf : ∀ n, decode c = .ok (f n) ↔ (fieldRz1 c = fieldRz1 p ∧ fieldRz0 c = fieldRz0 p ∧ fieldDir c = fieldDir p ∧
      fieldOp c = fieldOp p) ∧ n = (fieldLen c).toNat) :
    (∃ n, decode c = .ok (f n)) ↔ c &&& 0xFFFF00FF#32 = p := by
  simp only [hf, exists_and_left, exists_eq, and_true, mask_drops_len c p hp]

/-- The row of a mnemonic without a LEN: its mask keeps the whole word, which is the command's encoding. -/
theorem decode_iff_match_of_no_len {c : Word} {i : Instr} (hw : WellFormed i) :
    decode c = .ok i ↔ c &&& 0xFFFFFFFF#32 = encode i := by
  have hmask : c &&& 0xFFFFFFFF#32 = c := BitVec.and_allOnes
  rw [hmask]
  exact ⟨fun h => (encode_of_decode h).symm, fun h => h ▸ decode_encode hw⟩

theorem decode_ks_iff_match (c : Word) : (∃ len, decode c = .ok (.ks len)) ↔ c &&& 0xFFFF00FF#32 = 0x00000001#32 :=
  decode_iff_match_of_len (p := 0x00000001#32) rfl (decode_eq_ks c)

theorem decode_enc_iff_match (c : Word) : (∃ len, decode c = .ok (.enc len)) ↔ c &&& 0xFFFF00FF#32 = 0x00000002#32 :=
  decode_iff_match_of_len (p := 0x00000002#32) rfl (decode_eq_enc c)

theorem decode_dec_iff_match (c : Word) : (∃ len, decode c = .ok (.dec len)) ↔ c &&& 0xFFFF00FF#32 = 0x00000012#32 :=
  decode_iff_match_of_len (p := 0x00000012#32) rfl (decode_eq_dec c)

theorem decode_t_iff_match (c : Word) : decode c = .ok .t ↔ c &&& 0xFFFFFFFF#32 = 0x00000003#32 :=
  decode_iff_match_of_no_len (i := .t) rfl

theorem decode_tp_iff_match (c : Word) : decode c = .ok .tp ↔ c &&& 0xFFFFFFFF#32 = 0x00000004#32 :=
  decode_iff_match_of_no_len (i := .tp) rfl

theorem matches_row_of_decode {c : Word} {i : Instr} (h : decode c = .ok i) : c &&& i.row.mask = i.row.pattern := by
  cases i with
  | ks len => exact (decode_ks_iff_match c).1 ⟨len, h⟩
  | enc len => exact (decode_enc_iff_match c).1 ⟨len, h⟩
  | dec len => exact (decode_dec_iff_match c).1 ⟨len, h⟩
  | t => exact (decode_t_iff_match c).1 h
  | tp => exact (decode_tp_iff_match c).1 h

theorem decode_of_matches_row {c : Word} {i : Instr} (h : c &&& i.row.mask = i.row.pattern) :
    ∃ j, decode c = .ok j ∧ j.row = i.row := by
  cases i with
  | ks _ =>
    obtain ⟨len, hd⟩ := (decode_ks_iff_match c).2 h
    exact ⟨.ks len, hd, rfl⟩
  | enc _ =>
    obtain ⟨len, hd⟩ := (decode_enc_iff_match c).2 h
    exact ⟨.enc len, hd, rfl⟩
  | dec _ =>
    obtain ⟨len, hd⟩ := (decode_dec_iff_match c).2 h
    exact ⟨.dec len, hd, rfl⟩
  | t => exact ⟨.t, (decode_t_iff_match c).2 h, rfl⟩
  | tp => exact ⟨.tp, (decode_tp_iff_match c).2 h, rfl⟩

theorem row_mem_opcodeTable (i : Instr) : i.row ∈ opcodeTable := by
  cases i <;> simp [opcodeTable, Instr.row]

/-- The table's rows are the commands' rows. -/
theorem exists_row_of_mem_opcodeTable {r : Row} (h : r ∈ opcodeTable) : ∃ i : Instr, i.row = r := by
  simp only [opcodeTable, List.mem_cons, List.not_mem_nil, or_false] at h
  rcases h with rfl | rfl | rfl | rfl | rfl <;> exact ⟨_, rfl⟩

/-- Settles O4: a row's mask and match compare the fields that select its mnemonic, so two rows matching one word are both
the row of the command it decodes to. -/
theorem decodeSelectsItsRow : Obligations.DecodeSelectsItsRow := by
  refine ⟨decode_ks_iff_match, decode_enc_iff_match, decode_dec_iff_match, decode_t_iff_match, decode_tp_iff_match, ?_⟩
  intro c r hr q hq hcr hcq
  obtain ⟨i, rfl⟩ := exists_row_of_mem_opcodeTable hr
  obtain ⟨j, rfl⟩ := exists_row_of_mem_opcodeTable hq
  obtain ⟨i', hdi, hi⟩ := decode_of_matches_row hcr
  obtain ⟨j', hdj, hj⟩ := decode_of_matches_row hcq
  have hij : i' = j' := Except.ok.inj (hdi.symm.trans hdj)
  rw [← hi, ← hj, hij]

theorem decode_illegal_iff_no_row (c : Word) :
    (∃ e, decode c = .error e) ↔ ∀ row ∈ opcodeTable, c &&& row.mask ≠ row.pattern := by
  constructor
  · rintro ⟨e, he⟩ row hrow hmatch
    obtain ⟨i, rfl⟩ := exists_row_of_mem_opcodeTable hrow
    obtain ⟨j, hj, -⟩ := decode_of_matches_row hmatch
    exact nomatch he.symm.trans hj
  · intro h
    cases hd : decode c with
    | error e => exact ⟨e, rfl⟩
    | ok i => exact absurd (matches_row_of_decode hd) (h i.row (row_mem_opcodeTable i))

/-! ### Illegal words (30_encoding.md R75, R77) -/

theorem fieldDir_eq_one (c : Word) : fieldDir c = 1#1 ↔ c.getLsbD 4 = true := by
  have h : ∀ d : BitVec 1, d = 1#1 ↔ d ≠ 0#1 := by decide
  rw [h, Ne, fieldDir_eq_zero, Bool.not_eq_false]

/-- R71 gives OP four values a meaning. -/
theorem op_cases_of_assigned :
    ∀ op : BitVec 4, ¬ (op = 0#4 ∨ 5#4 ≤ op) → op = 1#4 ∨ op = 2#4 ∨ op = 3#4 ∨ op = 4#4 := by decide

/-- The four kinds of illegal words, in the order of R77. -/
def ListedIllegal (c : Word) : Prop :=
  (fieldRz1 c ≠ 0#16 ∨ fieldRz0 c ≠ 0#3) ∨
  (fieldOp c = 0#4 ∨ 5#4 ≤ fieldOp c) ∨
  (c.getLsbD 4 = true ∧ (fieldOp c = 1#4 ∨ fieldOp c = 3#4 ∨ fieldOp c = 4#4)) ∨
  (fieldLen c ≠ 0#8 ∧ (fieldOp c = 3#4 ∨ fieldOp c = 4#4))

theorem decode_of_not_listedIllegal {c : Word} (h : ¬ ListedIllegal c) : ∃ i, decode c = .ok i := by
  have hrz1 : fieldRz1 c = 0#16 := not_not.1 fun hn => h (.inl (.inl hn))
  have hrz0 : fieldRz0 c = 0#3 := not_not.1 fun hn => h (.inl (.inr hn))
  have dir_zero (ho : fieldOp c = 1#4 ∨ fieldOp c = 3#4 ∨ fieldOp c = 4#4) : fieldDir c = 0#1 :=
    (fieldDir_cases c).resolve_right fun hd => h (.inr (.inr (.inl ⟨(fieldDir_eq_one c).1 hd, ho⟩)))
  have len_zero (ho : fieldOp c = 3#4 ∨ fieldOp c = 4#4) : fieldLen c = 0#8 :=
    not_not.1 fun hn => h (.inr (.inr (.inr ⟨hn, ho⟩)))
  rcases op_cases_of_assigned _ fun ho => h (.inr (.inl ho)) with ho | ho | ho | ho
  · exact ⟨_, (decode_eq_ks c _).2 ⟨⟨hrz1, hrz0, dir_zero (.inl ho), ho⟩, rfl⟩⟩
  · rcases fieldDir_cases c with hd | hd
    · exact ⟨_, (decode_eq_enc c _).2 ⟨⟨hrz1, hrz0, hd, ho⟩, rfl⟩⟩
    · exact ⟨_, (decode_eq_dec c _).2 ⟨⟨hrz1, hrz0, hd, ho⟩, rfl⟩⟩
  · exact ⟨_, (decode_eq_t c).2 ⟨⟨hrz1, hrz0, dir_zero (.inr (.inl ho)), ho⟩, len_zero (.inl ho)⟩⟩
  · exact ⟨_, (decode_eq_tp c).2 ⟨⟨hrz1, hrz0, dir_zero (.inr (.inr ho)), ho⟩, len_zero (.inr ho)⟩⟩

theorem not_listedIllegal_of_decode {c : Word} {i : Instr} (h : decode c = .ok i) : ¬ ListedIllegal c := by
  unfold ListedIllegal
  rw [← fieldDir_eq_one]
  cases i with
  | ks len =>
    obtain ⟨⟨hrz1, hrz0, hdir, hop⟩, -⟩ := (decode_eq_ks c len).1 h
    simp [hrz1, hrz0, hdir, hop]
  | enc len =>
    obtain ⟨⟨hrz1, hrz0, hdir, hop⟩, -⟩ := (decode_eq_enc c len).1 h
    simp [hrz1, hrz0, hdir, hop]
  | dec len =>
    obtain ⟨⟨hrz1, hrz0, -, hop⟩, -⟩ := (decode_eq_dec c len).1 h
    simp [hrz1, hrz0, hop]
  | t =>
    obtain ⟨⟨hrz1, hrz0, hdir, hop⟩, hlen⟩ := (decode_eq_t c).1 h
    simp [hrz1, hrz0, hdir, hop, hlen]
  | tp =>
    obtain ⟨⟨hrz1, hrz0, hdir, hop⟩, hlen⟩ := (decode_eq_tp c).1 h
    simp [hrz1, hrz0, hdir, hop, hlen]

theorem decode_illegal_iff_listed (c : Word) : (∃ e, decode c = .error e) ↔ ListedIllegal c := by
  constructor
  · rintro ⟨e, he⟩
    by_contra hn
    obtain ⟨i, hi⟩ := decode_of_not_listedIllegal hn
    exact nomatch he.symm.trans hi
  · intro h
    cases hd : decode c with
    | error e => exact ⟨e, rfl⟩
    | ok i => exact absurd h (not_listedIllegal_of_decode hd)

/-- Settles O3: the lines that name a command are that command's fields, the lines that say ILLEGAL are kinds of R77. -/
theorem decodeFollowsFields : Obligations.DecodeFollowsFields := by
  intro c
  have illegal : ListedIllegal c → ∃ e, decode c = .error e := (decode_illegal_iff_listed c).2
  refine ⟨fun hrz => illegal (.inl hrz), fun hrz1 hrz0 => ⟨?ks, ?block, ?t, ?tp, ?none⟩, decode_illegal_iff_no_row c⟩
  case ks =>
    intro hop
    exact ⟨fun hdir => (decode_eq_ks c _).2 ⟨⟨hrz1, hrz0, (fieldDir_eq_zero c).2 hdir, hop⟩, rfl⟩,
      fun hdir => illegal (.inr (.inr (.inl ⟨hdir, .inl hop⟩)))⟩
  case block =>
    intro hop
    exact ⟨fun hdir => (decode_eq_enc c _).2 ⟨⟨hrz1, hrz0, (fieldDir_eq_zero c).2 hdir, hop⟩, rfl⟩,
      fun hdir => (decode_eq_dec c _).2 ⟨⟨hrz1, hrz0, (fieldDir_eq_one c).2 hdir, hop⟩, rfl⟩⟩
  case t =>
    intro hop
    refine ⟨fun hdir hlen => (decode_eq_t c).2 ⟨⟨hrz1, hrz0, (fieldDir_eq_zero c).2 hdir, hop⟩, hlen⟩, ?_⟩
    rintro (hdir | hlen)
    · exact illegal (.inr (.inr (.inl ⟨hdir, .inr (.inl hop)⟩)))
    · exact illegal (.inr (.inr (.inr ⟨hlen, .inl hop⟩)))
  case tp =>
    intro hop
    refine ⟨fun hdir hlen => (decode_eq_tp c).2 ⟨⟨hrz1, hrz0, (fieldDir_eq_zero c).2 hdir, hop⟩, hlen⟩, ?_⟩
    rintro (hdir | hlen)
    · exact illegal (.inr (.inr (.inl ⟨hdir, .inr (.inr hop)⟩)))
    · exact illegal (.inr (.inr (.inr ⟨hlen, .inr hop⟩)))
  case none => exact fun hop => illegal (.inr (.inl hop))

/-- A `CMD` write while BUSY = 0 whose check fails sets ERR to its code and changes nothing else (60_exceptions.md R201). -/
theorem busWrite_cmd_rejects {c : Word} {s : State} {code : Err} (hb : s.busy = false)
    (hf : firstFailing c s = some code) : busWrite 0x00#8 4 c s = .next { s with err := code } :=
  (busWrite_idle (r := .cmd) c nofun hb).trans (issueCommand_rejects hb hf)

/-- Settles O5: decoding fails exactly on R77's kinds, and a word that does not decode fails the first check. -/
theorem illegalWordsAreRejected : Obligations.IllegalWordsAreRejected := by
  refine fun c => ⟨decode_illegal_iff_listed c, ?_⟩
  rintro s hb ⟨e, he⟩
  exact busWrite_cmd_rejects hb (firstFailing_illegal he s)

/-! ### A wrong LEN (30_encoding.md R78) -/

theorem lengthCheck_of_ne {len : Nat} (code : Err) (h : len ≠ 16) : lengthCheck code len = some code := if_neg h

theorem blockChecks_of_ne {len : Nat} (s : State) (h : len ≠ 16) : blockChecks len s = some .blockLen := by
  rw [blockChecks, lengthCheck_of_ne .blockLen h]

/-- The word of a well-formed command that fails a check decodes to it and is rejected with the check's code. -/
theorem encoded_decodes_and_rejects {i : Instr} {s : State} {code : Err} (hw : WellFormed i) (hb : s.busy = false)
    (hc : execCheck i s = some code) :
    decode (encode i) = .ok i ∧ busWrite 0x00#8 4 (encode i) s = .next { s with err := code } :=
  ⟨decode_encode hw, busWrite_cmd_rejects hb ((firstFailing_ok (decode_encode hw) s).trans hc)⟩

/-- Settles O6: the words are encodings of well-formed commands whose length check fails, before any check of KEY_VALID. -/
theorem wrongLengthsDecodeAndAreRejected : Obligations.WrongLengthsDecodeAndAreRejected := by
  intro len hlt hne s hb
  have hw : decide (len < 256) = true := decide_eq_true hlt
  exact ⟨encoded_decodes_and_rejects (i := .ks len) hw hb (lengthCheck_of_ne .keyLen hne),
    encoded_decodes_and_rejects (i := .enc len) hw hb (blockChecks_of_ne s hne),
    encoded_decodes_and_rejects (i := .dec len) hw hb (blockChecks_of_ne s hne)⟩

/-! ### Words and mnemonics (30_encoding.md R76, R79) -/

/-- Settles O7: each word is, by evaluation, the encoding of its command. -/
theorem writtenOutWordsDecode : Obligations.WrittenOutWordsDecode :=
  ⟨decode_encode (i := .ks 16) rfl, decode_encode (i := .enc 16) rfl, decode_encode (i := .dec 16) rfl,
    decode_encode (i := .t) rfl, decode_encode (i := .tp) rfl⟩

/-- Settles O8: a mnemonic's word is its row's pattern with LEN, which is 16 where it is absent, in bits 15:8. -/
theorem mnemonicsHaveTheirWords : Obligations.MnemonicsHaveTheirWords :=
  ⟨rfl, rfl, rfl, fun _ _ => ⟨rfl, rfl, rfl⟩, rfl, rfl, fun _ => rfl⟩

end Sys2Proof.Machine
end

section
/-! PROOFS. The statements of 40_round_function.md: the S-box (R102, R103), rotation (R104), tau (R105), the diffusion
maps and the composite operators (R106 to R109, R115), SM4.T and SM4.TP (R112, R113), and what an issue and a completion
leave unchanged. -/

namespace Sys2Proof.Machine

/-! ### The S-box (40_round_function.md R102, R103) -/

/-- The rows of the inverse of the table of R102, laid out as `sboxRows`: the witness that no value stands twice there. -/
def sboxInvRows : List (List Byte) :=
  [[0x71#8, 0x6C#8, 0x7A#8, 0xB8#8, 0x16#8, 0x0F#8, 0x1E#8, 0x41#8, 0x35#8, 0xEB#8, 0xD0#8, 0x2A#8, 0xE4#8, 0xAC#8, 0x62#8, 0x5A#8],
   [0xCD#8, 0xC8#8, 0xDB#8, 0x1A#8, 0x0A#8, 0x8E#8, 0x08#8, 0x46#8, 0xF0#8, 0x4B#8, 0x96#8, 0xC1#8, 0x32#8, 0xA0#8, 0x60#8, 0xCC#8],
   [0xF7#8, 0x6D#8, 0x69#8, 0xAA#8, 0x61#8, 0x68#8, 0x1B#8, 0x76#8, 0x0C#8, 0xA9#8, 0x14#8, 0x10#8, 0x0E#8, 0xD8#8, 0xA3#8, 0xB7#8],
   [0x9B#8, 0xD2#8, 0x9A#8, 0x28#8, 0x95#8, 0x5F#8, 0x79#8, 0xB2#8, 0x86#8, 0xFE#8, 0xF4#8, 0x6B#8, 0x4A#8, 0x06#8, 0xFB#8, 0x3E#8],
   [0x84#8, 0xCB#8, 0x21#8, 0x2B#8, 0x19#8, 0xB3#8, 0x72#8, 0x40#8, 0xFF#8, 0x1C#8, 0xE3#8, 0x5B#8, 0x78#8, 0xF6#8, 0xAE#8, 0x4E#8],
   [0x22#8, 0xBF#8, 0x77#8, 0xAD#8, 0x29#8, 0x97#8, 0x5D#8, 0x73#8, 0x65#8, 0x49#8, 0xCE#8, 0xBE#8, 0xCA#8, 0x92#8, 0x63#8, 0xFA#8],
   [0xA7#8, 0x8D#8, 0x2F#8, 0x64#8, 0x55#8, 0xE8#8, 0xA5#8, 0x11#8, 0x50#8, 0xE1#8, 0xBA#8, 0x51#8, 0xBD#8, 0xBC#8, 0xED#8, 0xAF#8],
   [0x5C#8, 0x54#8, 0xBB#8, 0x45#8, 0xD9#8, 0x3C#8, 0x13#8, 0xE6#8, 0x6E#8, 0xF8#8, 0x27#8, 0xD6#8, 0x6A#8, 0xF2#8, 0xE7#8, 0xC7#8],
   [0x38#8, 0x52#8, 0xA4#8, 0x48#8, 0xEF#8, 0x4D#8, 0x1D#8, 0x6F#8, 0xD3#8, 0xE0#8, 0x82#8, 0x57#8, 0x9D#8, 0xC0#8, 0xB6#8, 0x3D#8],
   [0x01#8, 0x24#8, 0xC3#8, 0x99#8, 0x3A#8, 0x37#8, 0xE5#8, 0xE2#8, 0x26#8, 0x1F#8, 0x12#8, 0x94#8, 0x20#8, 0x5E#8, 0x7F#8, 0x74#8],
   [0x7C#8, 0x8F#8, 0x67#8, 0x88#8, 0x93#8, 0xD4#8, 0x3F#8, 0x42#8, 0x4F#8, 0x33#8, 0x18#8, 0xAB#8, 0x2E#8, 0x98#8, 0x91#8, 0xC2#8],
   [0xDF#8, 0x9E#8, 0x53#8, 0x31#8, 0xDE#8, 0x87#8, 0x09#8, 0x07#8, 0xDC#8, 0xE9#8, 0x47#8, 0xC4#8, 0xC6#8, 0xD7#8, 0x15#8, 0x81#8],
   [0xA8#8, 0xD1#8, 0x0B#8, 0x17#8, 0x7D#8, 0xEC#8, 0xEE#8, 0x85#8, 0x7E#8, 0x34#8, 0xA6#8, 0xFD#8, 0x04#8, 0xD5#8, 0x8B#8, 0x2D#8],
   [0xDA#8, 0x66#8, 0x83#8, 0x75#8, 0x70#8, 0xB0#8, 0x00#8, 0xFC#8, 0xCF#8, 0xC9#8, 0x56#8, 0xB1#8, 0xF5#8, 0xC5#8, 0xB4#8, 0x39#8],
   [0x90#8, 0x05#8, 0xA2#8, 0x9F#8, 0x30#8, 0xDD#8, 0x4C#8, 0x7B#8, 0x36#8, 0x02#8, 0x80#8, 0x59#8, 0xF3#8, 0x2C#8, 0xF9#8, 0x25#8],
   [0xF1#8, 0xEA#8, 0x8A#8, 0x44#8, 0x23#8, 0x9C#8, 0xA1#8, 0x89#8, 0x58#8, 0x8C#8, 0x3B#8, 0x0D#8, 0x43#8, 0xB5#8, 0x03#8, 0xB9#8]]

/-- The inverse of `sbox`, by `sboxInv_sbox`. -/
def sboxInv (y : Byte) : Byte := (sboxInvRows.getD (y.toNat / 16) []).getD (y.toNat % 16) 0#8

theorem sboxInv_sbox : ∀ b, sboxInv (sbox b) = b := by decide

theorem sbox_injective : Function.Injective sbox := Function.LeftInverse.injective sboxInv_sbox

/-- Settles O24: the table has an inverse, and on a finite type an injective map is bijective. -/
theorem sboxIsAPermutation : Obligations.SboxIsAPermutation :=
  ⟨Finite.injective_iff_bijective.1 sbox_injective, by decide⟩

/-! ### Rotation (40_round_function.md R104) -/

theorem rotl_eq_rotateLeft (x : Word) (i : Nat) : rotl x i = x.rotateLeft i := by
  rw [rotl, BitVec.rotateLeft_def]
  split
  · next h => simp [h, BitVec.ushiftRight_eq_zero]
  · rfl

theorem rotl_mod (x : Word) (i : Nat) : rotl x (i % 32) = rotl x i := by
  rw [rotl_eq_rotateLeft, rotl_eq_rotateLeft, BitVec.rotateLeft_mod_eq_rotateLeft]

/-- The bit that a rotation brings to place n. -/
theorem getLsbD_rotl (x : Word) (i : Nat) {n : Nat} (h : n < 32) :
    (rotl x i).getLsbD n = x.getLsbD ((n + (32 - i % 32)) % 32) := by
  rw [rotl_eq_rotateLeft, BitVec.getLsbD_rotateLeft]
  by_cases hw : n < i % 32
  · have hplace : (n + (32 - i % 32)) % 32 = 32 - i % 32 + n := by omega
    simp [hw, hplace]
  · have hplace : (n + (32 - i % 32)) % 32 = n - i % 32 := by omega
    simp [hw, hplace, h]

theorem rotl_rotl (x : Word) (i j : Nat) : rotl (rotl x i) j = rotl x (i + j) := by
  refine BitVec.eq_of_getLsbD_eq fun n hn => ?_
  rw [getLsbD_rotl _ _ hn, getLsbD_rotl _ _ (Nat.mod_lt _ (by decide)), getLsbD_rotl _ _ hn]
  congr 1
  omega

theorem rotl_comm (x : Word) (i j : Nat) : rotl (rotl x i) j = rotl (rotl x j) i := by
  rw [rotl_rotl, rotl_rotl, Nat.add_comm]

theorem rotl_xor (x y : Word) (i : Nat) : rotl (x ^^^ y) i = rotl x i ^^^ rotl y i := by
  refine BitVec.eq_of_getLsbD_eq fun n hn => ?_
  rw [BitVec.getLsbD_xor, getLsbD_rotl _ _ hn, getLsbD_rotl _ _ hn, getLsbD_rotl _ _ hn, BitVec.getLsbD_xor]

/-- Settles O20: the bit brought to place (n + i) modulo 32 is bit n, and the amount counts modulo 32 only. -/
theorem rotateLeftMovesBits : Obligations.RotateLeftMovesBits := by
  refine ⟨fun x i n hn => ?_, fun x => ⟨rfl, (rotl_mod x 32).symm, (rotl_mod x 64).symm, (rotl_mod x 33).symm⟩, rfl⟩
  have hback : ((n + i) % 32 + (32 - i % 32)) % 32 = n := by omega
  rw [getLsbD_rotl x i (Nat.mod_lt _ (by decide)), hback]

/-! ### Tau, byte by byte (40_round_function.md R105) -/

theorem wordOfBytes_bytes (b0 b1 b2 b3 : Byte) :
    (wordOfBytes b0 b1 b2 b3).extractLsb' 24 8 = b0 ∧ (wordOfBytes b0 b1 b2 b3).extractLsb' 16 8 = b1 ∧
    (wordOfBytes b0 b1 b2 b3).extractLsb' 8 8 = b2 ∧ (wordOfBytes b0 b1 b2 b3).extractLsb' 0 8 = b3 := by
  simpa [bytesBe] using bytesBe_wordOfBytes b0 b1 b2 b3

theorem wordOfBytes_inj {b0 b1 b2 b3 c0 c1 c2 c3 : Byte} (h : wordOfBytes b0 b1 b2 b3 = wordOfBytes c0 c1 c2 c3) :
    b0 = c0 ∧ b1 = c1 ∧ b2 = c2 ∧ b3 = c3 := by
  simpa [bytesBe_wordOfBytes] using congrArg bytesBe h

theorem exists_wordOfBytes (w : Word) : ∃ b0 b1 b2 b3, w = wordOfBytes b0 b1 b2 b3 := by
  refine ⟨w.extractLsb' 24 8, w.extractLsb' 16 8, w.extractLsb' 8 8, w.extractLsb' 0 8, ?_⟩
  rw [wordOfBytes, BitVec.extractLsb'_append_extractLsb'_eq_extractLsb' (rfl : 24 = 16 + 8),
    BitVec.extractLsb'_append_extractLsb'_eq_extractLsb' (rfl : 16 = 8 + 8),
    BitVec.extractLsb'_append_extractLsb'_eq_extractLsb' (rfl : 8 = 0 + 8)]
  exact BitVec.extractLsb'_eq_self.symm

theorem tau_wordOfBytes (b0 b1 b2 b3 : Byte) :
    tau (wordOfBytes b0 b1 b2 b3) = wordOfBytes (sbox b0) (sbox b1) (sbox b2) (sbox b3) := by
  obtain ⟨h0, h1, h2, h3⟩ := wordOfBytes_bytes b0 b1 b2 b3
  rw [tau, h0, h1, h2, h3]

theorem tau_injective : Function.Injective tau := by
  intro a c h
  obtain ⟨a0, a1, a2, a3, rfl⟩ := exists_wordOfBytes a
  obtain ⟨c0, c1, c2, c3, rfl⟩ := exists_wordOfBytes c
  rw [tau_wordOfBytes, tau_wordOfBytes] at h
  obtain ⟨h0, h1, h2, h3⟩ := wordOfBytes_inj h
  rw [sbox_injective h0, sbox_injective h1, sbox_injective h2, sbox_injective h3]

/-- Settles O21: tau's value is built from the substituted bytes, and the S-box is injective on each. -/
theorem tauIsABytewiseBijection : Obligations.TauIsABytewiseBijection :=
  ⟨fun _ => wordOfBytes_bytes _ _ _ _, Finite.injective_iff_bijective.1 tau_injective⟩

/-! ### Linearity (40_round_function.md R106 to R109, R115) -/

theorem linL_xor (a b : Word) : linL (a ^^^ b) = linL a ^^^ linL b := by
  simp only [linL, rotl_xor]
  ac_rfl

theorem linLp_xor (a b : Word) : linLp (a ^^^ b) = linLp a ^^^ linLp b := by
  simp only [linLp, rotl_xor]
  ac_rfl

/-- A map that is linear over XOR sends 0 to 0. -/
theorem not_linear_of_zero {f : Word → Word} (h : f 0#32 ≠ 0#32) : ∃ a b, f (a ^^^ b) ≠ f a ^^^ f b :=
  ⟨0#32, 0#32, by rwa [BitVec.xor_self, BitVec.xor_self]⟩

/-- Settles O22: rotation is linear, so L and L′ are; tau, T and T′ send 0 to another word. -/
theorem diffusionIsLinear : Obligations.DiffusionIsLinear :=
  ⟨fun a b => ⟨linL_xor a b, linLp_xor a b⟩, by decide, by decide, by decide, by decide,
    not_linear_of_zero (by decide), not_linear_of_zero (by decide), not_linear_of_zero (by decide)⟩

/-! ### Rotation by a byte (40_round_function.md R108, R109; 95_test_vectors.md 2.2) -/

theorem linL_rotl (b : Word) (i : Nat) : linL (rotl b i) = rotl (linL b) i := by
  simp only [linL, rotl_xor, rotl_comm _ i]

theorem linLp_rotl (b : Word) (i : Nat) : linLp (rotl b i) = rotl (linLp b) i := by
  simp only [linLp, rotl_xor, rotl_comm _ i]

/-- Rotation by a byte moves the first byte to the end. -/
theorem rotl_wordOfBytes (b0 b1 b2 b3 : Byte) : rotl (wordOfBytes b0 b1 b2 b3) 8 = wordOfBytes b1 b2 b3 b0 := by
  refine BitVec.eq_of_getLsbD_eq fun n hn => ?_
  rw [getLsbD_rotl _ _ hn]
  simp only [wordOfBytes, BitVec.getLsbD_append]
  interval_cases n <;> simp

theorem tau_rotl_byte (a : Word) : tau (rotl a 8) = rotl (tau a) 8 := by
  obtain ⟨b0, b1, b2, b3, rfl⟩ := exists_wordOfBytes a
  simp only [rotl_wordOfBytes, tau_wordOfBytes]

/-- Settles O23: rotation by a byte permutes the bytes, so it commutes with tau; L and L′ commute with every rotation. -/
theorem roundFunctionsCommuteWithByteRotation : Obligations.RoundFunctionsCommuteWithByteRotation := by
  intro x
  simp only [roundT, roundTp, tau_rotl_byte, linL_rotl, linLp_rotl, and_self]

/-! ### SM4.T and SM4.TP (40_round_function.md R112, R113) -/

theorem exec_accepts {i : Instr} {s : State} (hb : s.busy = false) (hc : execCheck i s = none) :
    exec i s = .next (acceptedState i s) := by
  rw [exec_eq_issue, hc, issue_accepts hb]

theorem busWrite_cmd_of_decode {c : Word} {i : Instr} (h : decode c = .ok i) (s : State) :
    busWrite 0x00#8 4 c s = exec i s :=
  (busWrite_off .cmd c s).trans (writeReg_cmd_of_decode h s)

/-- A decoded word has its row's OP (30_encoding.md R71). -/
theorem fieldOp_of_decode {c : Word} {i : Instr} (h : decode c = .ok i) : fieldOp c = fieldOp i.row.pattern := by
  cases i with
  | ks len =>
    obtain ⟨⟨-, -, -, hop⟩, -⟩ := (decode_eq_ks c len).1 h
    exact hop
  | enc len =>
    obtain ⟨⟨-, -, -, hop⟩, -⟩ := (decode_eq_enc c len).1 h
    exact hop
  | dec len =>
    obtain ⟨⟨-, -, -, hop⟩, -⟩ := (decode_eq_dec c len).1 h
    exact hop.trans (by decide : 2#4 = fieldOp 0x00000012#32)
  | t =>
    obtain ⟨⟨-, -, -, hop⟩, -⟩ := (decode_eq_t c).1 h
    exact hop
  | tp =>
    obtain ⟨⟨-, -, -, hop⟩, -⟩ := (decode_eq_tp c).1 h
    exact hop

/-- A command alone in its OP is decoded from one word only; any other word of that OP is rejected. -/
theorem busWrite_rejects_other_words {i : Instr} (hi : ∀ j : Instr, fieldOp j.row.pattern = fieldOp i.row.pattern → j = i)
    {c : Word} {s : State} (hb : s.busy = false) (hop : fieldOp c = fieldOp i.row.pattern) (hne : c ≠ encode i) :
    busWrite 0x00#8 4 c s = .next { s with err := .illegalCmd } := by
  cases hd : decode c with
  | error e => exact busWrite_cmd_rejects hb (firstFailing_illegal hd s)
  | ok j =>
    obtain rfl := hi j ((fieldOp_of_decode hd).symm.trans hop)
    exact absurd (encode_of_decode hd).symm hne

theorem eq_t_of_op (j : Instr) (h : fieldOp j.row.pattern = 3#4) : j = .t := by
  cases j with
  | t => rfl
  | _ => exact absurd h (by simp only [Instr.row]; decide)

theorem eq_tp_of_op (j : Instr) (h : fieldOp j.row.pattern = 4#4) : j = .tp := by
  cases j with
  | tp => rfl
  | _ => exact absurd h (by simp only [Instr.row]; decide)

/-- Settles O26: SM4.T has no check to fail, its one word decodes to it, and OP = 3 is no other command's. -/
theorem tCommand : Obligations.TCommand := by
  refine ⟨fun s hb => ⟨exec_accepts hb rfl, rfl, busWrite_cmd_of_decode rfl s, fun c hop hne => ?_⟩, by decide⟩
  exact busWrite_rejects_other_words (i := .t) eq_t_of_op hb hop hne

/-- Settles O27: SM4.TP has no check to fail, its one word decodes to it, and OP = 4 is no other command's. -/
theorem tpCommand : Obligations.TpCommand := by
  refine ⟨fun s hb => ⟨exec_accepts hb rfl, rfl, busWrite_cmd_of_decode rfl s, fun c hop hne => ?_⟩, by decide⟩
  exact busWrite_rejects_other_words (i := .tp) eq_tp_of_op hb hop hne

/-! ### What an issue leaves unchanged (60_exceptions.md R201; 70_reset_and_hazards.md R232) -/

@[simp] theorem acceptedState_x (i : Instr) (s : State) : (acceptedState i s).x = s.x := by cases i <;> rfl
@[simp] theorem acceptedState_k (i : Instr) (s : State) : (acceptedState i s).k = s.k := by cases i <;> rfl
@[simp] theorem acceptedState_host (i : Instr) (s : State) : (acceptedState i s).host = s.host := by cases i <;> rfl
@[simp] theorem acceptedState_turns (i : Instr) (s : State) : (acceptedState i s).turns = s.turns := by cases i <;> rfl
@[simp] theorem acceptedState_draws (i : Instr) (s : State) : (acceptedState i s).draws = s.draws := by cases i <;> rfl

/-- The value of a register other than `STATUS` depends on its own fields alone (20_memory.md R51). -/
theorem regValue_congr {r : Reg} {s u : State} (hstatus : r ≠ .status) (hdata : (∃ n, r = .data n) → u.data = s.data)
    (harg : r = .arg → u.arg = s.arg) (hres : r = .res → u.res = s.res)
    (hrk : (∃ n, r = .rk n) → u.keyValid = s.keyValid ∧ u.rk = s.rk) : regValue r u = regValue r s := by
  cases r with
  | cmd => rfl
  | status => exact absurd rfl hstatus
  | key n => rfl
  | data n => rw [regValue, regValue, hdata ⟨n, rfl⟩]
  | arg => exact harg rfl
  | res => exact hres rfl
  | rk n =>
    obtain ⟨hkv, hfile⟩ := hrk ⟨n, rfl⟩
    rw [regValue, regValue, hkv, hfile]

/-- Everything a command issue can do. -/
theorem exec_cases {i : Instr} {s u : State} (h : exec i s = .next u) :
    (s.busy = true ∧ u = dropWrite s) ∨ (s.busy = false ∧ ∃ code, execCheck i s = some code ∧ u = raiseCmdError code s) ∨
    (s.busy = false ∧ execCheck i s = none ∧ u = acceptedState i s) :=
  issue_cases ((exec_eq_issue i s).symm.trans h)

/-- No command issue writes an operand, a result, the round-key file, a working word or the host side. -/
theorem exec_keeps_registers {i : Instr} {s u : State} (h : exec i s = .next u) :
    u.key = s.key ∧ u.data = s.data ∧ u.arg = s.arg ∧ u.res = s.res ∧ u.rk = s.rk ∧ u.x = s.x ∧ u.k = s.k ∧
    u.host = s.host ∧ u.turns = s.turns ∧ u.draws = s.draws := by
  obtain ⟨-, rfl⟩ | ⟨-, code, -, rfl⟩ | ⟨-, -, rfl⟩ := exec_cases h <;> simp

theorem exec_overrun {i : Instr} {s u : State} (h : exec i s = .next u) : u.overrun = (s.overrun || s.busy) := by
  obtain ⟨hb, rfl⟩ | ⟨hb, code, -, rfl⟩ | ⟨hb, -, rfl⟩ := exec_cases h <;> simp [hb]

theorem exec_keyValid {i : Instr} {s u : State} (h : exec i s = .next u) (hne : u.keyValid ≠ s.keyValid) :
    s.busy = false ∧ i = .ks 16 ∧ u.keyValid = false := by
  obtain ⟨-, rfl⟩ | ⟨-, code, -, rfl⟩ | ⟨hb, hc, rfl⟩ := exec_cases h
  · exact absurd rfl hne
  · exact absurd rfl hne
  · cases i with
    | ks len => exact ⟨hb, by rw [execCheck_ks_eq_none hc], rfl⟩
    | _ => exact absurd rfl hne

/-- Settles O37: the fields an issue keeps, and with them the value of every register that shows them. -/
theorem commandFrame : Obligations.CommandFrame := by
  intro i s u h
  obtain ⟨hkey, hdata, harg, hres, hrk, hx, hk, hhost, hturns, hdraws⟩ := exec_keeps_registers h
  refine ⟨hkey, hdata, harg, hres, hrk, hx, hk, hhost, hturns, hdraws, exec_overrun h, fun hb => ?_, exec_keyValid h,
    fun r hstatus hr => ?_, fun hkv n => ?_⟩
  · have hdrop : exec i s = .next (dropWrite s) := by rw [exec_eq_issue, issue_busy hb]
    cases h.symm.trans hdrop
    exact ⟨rfl, rfl⟩
  · exact regValue_congr hstatus (fun _ => hdata) (fun _ => harg) (fun _ => hres) (fun ⟨n, hn⟩ => absurd hn (hr n))
  · exact regValue_congr nofun (fun _ => hdata) (fun _ => harg) (fun _ => hres) (fun _ => ⟨hkv, hrk⟩)

/-! ### What a completion leaves unchanged (70_reset_and_hazards.md R233) -/

@[simp] theorem complete_host (p : Pending) (s : State) : (complete p s).host = s.host := by cases p <;> rfl
@[simp] theorem complete_turns (p : Pending) (s : State) : (complete p s).turns = s.turns := by cases p <;> rfl
@[simp] theorem complete_draws (p : Pending) (s : State) : (complete p s).draws = s.draws := by cases p <;> rfl

theorem engineTurn_of_pend {p : Pending} {s : State} (h : s.pend = some p) : engineTurn s = complete p s := by
  rw [engineTurn, h]

/-- What the completion of a block transform does not write (42_block_transform.md R155, R156). -/
theorem complete_block_keeps {p : Pending} {block : Quad} (s : State) (h : p = .enc block ∨ p = .dec block) :
    (complete p s).rk = s.rk ∧ (complete p s).k = s.k ∧ (complete p s).keyValid = s.keyValid ∧
    (complete p s).res = s.res := by
  obtain rfl | rfl := h
  · exact ⟨rfl, rfl, rfl, rfl⟩
  · exact ⟨rfl, rfl, rfl, rfl⟩

/-- What the completion of a composite operator does not write (R112, R113). -/
theorem complete_operator_keeps {p : Pending} {a : Word} (s : State) (h : p = .t a ∨ p = .tp a) :
    (complete p s).rk = s.rk ∧ (complete p s).k = s.k ∧ (complete p s).x = s.x ∧
    (complete p s).keyValid = s.keyValid ∧ (complete p s).data = s.data := by
  obtain rfl | rfl := h
  · exact ⟨rfl, rfl, rfl, rfl, rfl⟩
  · exact ⟨rfl, rfl, rfl, rfl, rfl⟩

/-- Settles O38: an engine turn is the completion of the command in flight, which writes its results and `pend` alone; a
register that is none of the results shows fields the completion keeps. -/
theorem completionFrame : Obligations.CompletionFrame := by
  intro p s hp
  rw [engineTurn_of_pend hp]
  have harg : (complete p s).arg = s.arg := complete_arg p s
  refine ⟨by simp, ?ks, ?block, ?operator⟩
  case ks =>
    rintro key rfl
    exact ⟨rfl, rfl, rfl, fun r hstatus hr =>
      regValue_congr hstatus (fun _ => rfl) (fun _ => harg) (fun _ => rfl) (fun ⟨n, hn⟩ => absurd hn (hr n))⟩
  case block =>
    intro block hblock
    obtain ⟨hrk, hk, hkv, hres⟩ := complete_block_keeps s hblock
    exact ⟨hrk, hk, hkv, hres, fun r hstatus hr =>
      regValue_congr hstatus (fun ⟨n, hn⟩ => absurd hn (hr n)) (fun _ => harg) (fun _ => hres) (fun _ => ⟨hkv, hrk⟩)⟩
  case operator =>
    intro a hop
    obtain ⟨hrk, hk, hx, hkv, hdata⟩ := complete_operator_keeps s hop
    exact ⟨hrk, hk, hx, hkv, hdata, fun r hstatus hr =>
      regValue_congr hstatus (fun _ => hdata) (fun _ => harg) (fun hn => absurd hn hr) (fun _ => ⟨hkv, hrk⟩)⟩

end Sys2Proof.Machine
end

section
/-! PROOFS. The statements of 41_key_schedule.md: SM4.KS (R133), the schedule as a function of the key (R134), and its
indexed form (R135). -/

namespace Sys2Proof.Machine

/-! ### Four working words as a window of a sequence (41_key_schedule.md R135) -/

/-- The working words hold `K_n, …, K_{n+3}` in `k[n % 4], …, k[(n+3) % 4]` (R135). -/
def HoldsWindow (K : Nat → Word) (n : Nat) (q : Quad) : Prop :=
  ∀ m, n ≤ m → m < n + 4 → quadGet q (Fin.ofNat 4 m) = K m

theorem quadGet_of_holdsWindow {K : Nat → Word} {n d : Nat} {q : Quad} {j : Fin 4} (h : HoldsWindow K n q)
    (hj : n % 4 = j.val) (hd : d < 4) : quadGet q (j + Fin.ofNat 4 d) = K (n + d) := by
  have hindex : j + Fin.ofNat 4 d = Fin.ofNat 4 (n + d) := Fin.ext (by simp [Fin.val_add, ← hj])
  rw [hindex, h (n + d) (by omega) (by omega)]

/-- Word n of the window makes place for word n + 4, which has its index modulo 4. -/
theorem quadSet_holdsWindow {K : Nat → Word} {n : Nat} {q : Quad} {j : Fin 4} (h : HoldsWindow K n q)
    (hj : n % 4 = j.val) : HoldsWindow K (n + 1) (quadSet q j (K (n + 4))) := by
  intro m hlo hhi
  by_cases hm : m = n + 4
  · have hsame : Fin.ofNat 4 m = j := Fin.ext (by simp [hm, hj])
    rw [hsame, quadGet_set_same, hm]
  · have hother : Fin.ofNat 4 m ≠ j := fun heq => by
      have hmod : m % 4 = j.val := congrArg Fin.val heq
      omega
    rw [quadGet_set_other q _ hother, h m (by omega) (by omega)]

/-- An in-place line on word j, for any round function F, is one step of the indexed recurrence. -/
theorem update_holdsWindow {K : Nat → Word} {n : Nat} {q : Quad} {j : Fin 4} {F : Word → Word} {c : Word}
    (h : HoldsWindow K n q) (hj : n % 4 = j.val)
    (hK : K (n + 4) = K n ^^^ F (K (n + 1) ^^^ K (n + 2) ^^^ K (n + 3) ^^^ c)) :
    HoldsWindow K (n + 1)
      (quadSet q j (quadGet q j ^^^ F (quadGet q (j + 1) ^^^ quadGet q (j + 2) ^^^ quadGet q (j + 3) ^^^ c))) := by
  have h0 : quadGet q j = K n := add_zero j ▸ quadGet_of_holdsWindow (d := 0) h hj (by omega)
  have h1 : quadGet q (j + 1) = K (n + 1) := quadGet_of_holdsWindow (d := 1) h hj (by omega)
  have h2 : quadGet q (j + 2) = K (n + 2) := quadGet_of_holdsWindow (d := 2) h hj (by omega)
  have h3 : quadGet q (j + 3) = K (n + 3) := quadGet_of_holdsWindow (d := 3) h hj (by omega)
  rw [h0, h1, h2, h3, ← hK]
  exact quadSet_holdsWindow h hj

/-! ### The indexed form (41_key_schedule.md R131, R132, R135) -/

/-- The recurrence of R135 at n. -/
def KsRecurrence (K : Nat → Word) (n : Nat) : Prop :=
  K (n + 4) = K n ^^^ roundTp (K (n + 1) ^^^ K (n + 2) ^^^ K (n + 3) ^^^ ck n)

theorem ksStep_holdsWindow {K : Nat → Word} {n : Nat} {q : Quad} {j : Fin 4} (hK : KsRecurrence K n)
    (hj : n % 4 = j.val) (h : HoldsWindow K n q) : HoldsWindow K (n + 1) (ksStep j (ck n) q) :=
  update_holdsWindow h hj hK

theorem ksGroup_holdsWindow {K : Nat → Word} {i : Nat} {q : Quad} (hK : ∀ n < 32, KsRecurrence K n) (hi : i < 8)
    (h : HoldsWindow K (4 * i) q) : HoldsWindow K (4 * (i + 1)) (ksGroup i q) := by
  have h1 := ksStep_holdsWindow (n := 4 * i) (j := 0) (hK _ (by omega)) (by omega) h
  have h2 := ksStep_holdsWindow (n := 4 * i + 1) (j := 1) (hK _ (by omega)) (by omega) h1
  have h3 := ksStep_holdsWindow (n := 4 * i + 2) (j := 2) (hK _ (by omega)) (by omega) h2
  exact ksStep_holdsWindow (n := 4 * i + 3) (j := 3) (hK _ (by omega)) (by omega) h3

theorem ksSeed_holdsWindow {K : Nat → Word} {key : Quad} (h : ∀ n : Fin 4, K n.val = quadGet key n ^^^ quadGet fk n) :
    HoldsWindow K 0 (ksSeed key) := by
  have hseed (j : Fin 4) : quadGet (ksSeed key) j = quadGet key j ^^^ quadGet fk j := by fin_cases j <;> rfl
  intro m _ hm
  rw [hseed, ← h, Fin.val_ofNat, Nat.mod_eq_of_lt (by omega)]

/-- After n groups the working words hold the window that starts at `K_{4n}`. -/
theorem ksState_holdsWindow {K : Nat → Word} {key : Quad} (hseed : HoldsWindow K 0 (ksSeed key))
    (hK : ∀ n < 32, KsRecurrence K n) {n : Nat} (hn : n ≤ 8) : HoldsWindow K (4 * n) (ksState key n) := by
  induction n with
  | zero => exact hseed
  | succ i ih => exact ksGroup_holdsWindow hK hn (ih (by omega))

theorem rkGroup_keySchedule (key : Quad) (g : Fin 8) : rkGroup (keySchedule key) g = ksState key (g.val + 1) := by
  fin_cases g <;> rfl

/-- Settles O52: `RK[n]` is word n % 4 after group n / 4, when the working words hold the window with `K_{n+4}` there. -/
theorem keyScheduleIndexedForm : Obligations.KeyScheduleIndexedForm := by
  intro key K hseed hK n
  have hwindow : HoldsWindow K (4 * (n.val / 4 + 1)) (ksState key (n.val / 4 + 1)) :=
    ksState_holdsWindow (ksSeed_holdsWindow hseed) hK (by omega)
  have hindex : Fin.ofNat 4 (n.val % 4) = Fin.ofNat 4 (n.val + 4) := Fin.ext (by simp)
  rw [rkWord_eq_quadGet (g := ⟨n.val / 4, by omega⟩) (j := Fin.ofNat 4 (n.val % 4)) _ rfl (by simp), rkGroup_keySchedule,
    hindex]
  exact hwindow (n.val + 4) (by omega) (by omega)

/-! ### SM4.KS (41_key_schedule.md R133, R134) -/

/-- SM4.KS with LEN = 16 fails no check. -/
theorem exec_ks_accepts {s : State} (hb : s.busy = false) :
    exec (.ks 16) s = .next (accept (.ks s.key) { s with keyValid := false }) :=
  exec_accepts (i := .ks 16) hb rfl

theorem engineTurn_accepted_ks (s : State) :
    engineTurn (accept (.ks s.key) { s with keyValid := false }) =
      completeKs s.key (accept (.ks s.key) { s with keyValid := false }) :=
  engineTurn_of_pend (p := .ks s.key) rfl

theorem exec_ks_wrong_len {s : State} (hb : s.busy = false) {len : Nat} (hlen : len ≠ 16) :
    exec (.ks len) s = .next { s with err := .keyLen } := by
  have hcheck : execCheck (.ks len) s = some .keyLen := lengthCheck_of_ne .keyLen hlen
  rw [exec_eq_issue, hcheck, issue_rejects .keyLen hb, raiseCmdError]

theorem busWrite_ks_word {c : Word} (hc : c &&& 0xFFFF00FF#32 = 0x00000001#32) (s : State) :
    busWrite 0x00#8 4 c s = exec (.ks (fieldLen c).toNat) s := by
  obtain ⟨len, hd⟩ := (decode_ks_iff_match c).2 hc
  obtain ⟨-, rfl⟩ := (decode_eq_ks c len).1 hd
  exact busWrite_cmd_of_decode hd s

theorem listedIllegal_of_ks_op {c : Word} (hop : fieldOp c = 1#4)
    (h : c.getLsbD 4 = true ∨ fieldRz0 c ≠ 0#3 ∨ fieldRz1 c ≠ 0#16) : ListedIllegal c := by
  obtain hdir | hrz0 | hrz1 := h
  · exact .inr (.inr (.inl ⟨hdir, .inl hop⟩))
  · exact .inl (.inr hrz0)
  · exact .inl (.inl hrz1)

/-- Settles O28: the acceptance, completion and rejections of SM4.KS in every idle state; the examples by evaluation. -/
theorem ksCommand : Obligations.KsCommand := by
  refine ⟨fun s hb => ⟨exec_ks_accepts hb, engineTurn_accepted_ks s, fun c hc => busWrite_ks_word hc s,
    fun len hlen => exec_ks_wrong_len hb hlen, fun c hop h => ?_⟩, by decide, by decide, by decide⟩
  obtain ⟨e, he⟩ := (decode_illegal_iff_listed c).2 (listedIllegal_of_ks_op hop h)
  exact busWrite_cmd_rejects hb (firstFailing_illegal he s)

/-- Settles O53: the completion writes the schedule of the KEY read at acceptance. -/
theorem scheduleDependsOnKeyAlone : Obligations.ScheduleDependsOnKeyAlone := by
  intro s s' hb hb' hkey
  refine ⟨_, _, exec_ks_accepts hb, exec_ks_accepts hb', ?_⟩
  rw [engineTurn_accepted_ks, engineTurn_accepted_ks]
  exact congrArg keySchedule hkey

end Sys2Proof.Machine
end

section
/-! PROOFS. The statements of 42_block_transform.md: the transform's indexed form (R154), decryption as the inverse of
encryption (R157), and the commands SM4.ENC and SM4.DEC (R155, R156). -/

namespace Sys2Proof.Machine

/-! ### The indexed form (42_block_transform.md R151 to R154) -/

/-- The recurrence of R154 at n. -/
def BlockRecurrence (kw X : Nat → Word) (n : Nat) : Prop :=
  X (n + 4) = X n ^^^ roundT (X (n + 1) ^^^ X (n + 2) ^^^ X (n + 3) ^^^ kw n)

theorem blockStep_holdsWindow {kw X : Nat → Word} {n : Nat} {q : Quad} {j : Fin 4} (hX : BlockRecurrence kw X n)
    (hj : n % 4 = j.val) (h : HoldsWindow X n q) : HoldsWindow X (n + 1) (blockStep j (kw n) q) :=
  update_holdsWindow h hj hX

/-- The key words in the order their steps run are the sequence kw of R154. -/
def KeyWordsAre (dir : Dir) (rk : RoundKeys) (kw : Nat → Word) : Prop :=
  ∀ (r : Fin 8) (j : Fin 4), keyWord dir rk r j = kw (4 * r.val + j.val)

theorem keyWord_encrypt_eq_rkWord (rk : RoundKeys) (r : Fin 8) (j : Fin 4) :
    keyWord .encrypt rk r j = rkWord rk ⟨4 * r.val + j.val, by omega⟩ :=
  (rkWord_eq_quadGet (g := r) (j := j) rk (by simp only; omega) (by simp only; omega)).symm

/-- Decryption's key words, both of their indices reversed, are `RK` from the last word down (90_conflicts.md C1). -/
theorem keyWord_decrypt_eq_rkWord (rk : RoundKeys) (r : Fin 8) (j : Fin 4) :
    keyWord .decrypt rk r j = rkWord rk (31 - ⟨4 * r.val + j.val, by omega⟩) := by
  have hindex : ∀ (r : Fin 8) (j : Fin 4), (31 - ⟨4 * r.val + j.val, by omega⟩ : Fin 32).val =
      4 * (7 - r).val + (3 - j).val := by decide
  exact (rkWord_eq_quadGet (g := 7 - r) (j := 3 - j) rk (by rw [hindex]; omega) (by rw [hindex]; omega)).symm

section
variable {dir : Dir} {rk : RoundKeys} {kw X : Nat → Word}

theorem blockGroup_holdsWindow {q : Quad} (hkw : KeyWordsAre dir rk kw) (hX : ∀ n < 32, BlockRecurrence kw X n)
    (r : Fin 8) (h : HoldsWindow X (4 * r.val) q) : HoldsWindow X (4 * (r.val + 1)) (blockGroup dir rk q r) := by
  rw [blockGroup, hkw r 0, hkw r 1, hkw r 2, hkw r 3]
  have h1 := blockStep_holdsWindow (n := 4 * r.val) (j := 0) (hX _ (by omega)) (by omega) h
  have h2 := blockStep_holdsWindow (n := 4 * r.val + 1) (j := 1) (hX _ (by omega)) (by omega) h1
  have h3 := blockStep_holdsWindow (n := 4 * r.val + 2) (j := 2) (hX _ (by omega)) (by omega) h2
  exact blockStep_holdsWindow (n := 4 * r.val + 3) (j := 3) (hX _ (by omega)) (by omega) h3

/-- Consecutive groups from group i on move the window on by four words each. -/
theorem blockGroups_holdWindow (hkw : KeyWordsAre dir rk kw) (hX : ∀ n < 32, BlockRecurrence kw X n)
    (groups : List (Fin 8)) {i : Nat} (hi : groups.map Fin.val = List.range' i groups.length) {q : Quad}
    (h : HoldsWindow X (4 * i) q) :
    HoldsWindow X (4 * (i + groups.length)) (groups.foldl (blockGroup dir rk) q) := by
  induction groups generalizing i q with
  | nil => exact h
  | cons r rest ih =>
    rw [List.map_cons, List.length_cons, List.range'_succ] at hi
    obtain ⟨rfl, hrest⟩ := List.cons.inj hi
    rw [List.length_cons, ← Nat.succ_add_eq_add_succ]
    exact ih hrest (blockGroup_holdsWindow hkw hX r h)

theorem blockSteps_holdsWindow {block : Quad} (hkw : KeyWordsAre dir rk kw) (hX : ∀ n < 32, BlockRecurrence kw X n)
    (h : HoldsWindow X 0 block) : HoldsWindow X 32 (blockSteps dir rk block) :=
  blockGroups_holdWindow hkw hX [0, 1, 2, 3, 4, 5, 6, 7] rfl h

end

theorem holdsWindow_zero {X : Nat → Word} {q : Quad} (h : ∀ n : Fin 4, X n.val = quadGet q n) : HoldsWindow X 0 q := by
  intro m _ hm
  rw [← h, Fin.val_ofNat, Nat.mod_eq_of_lt (by omega)]

theorem quadReverse_of_holdsWindow {X : Nat → Word} {q : Quad} (h : HoldsWindow X 32 q) :
    quadReverse q = ⟨X 35, X 34, X 33, X 32⟩ := by
  rw [← h 32 (by omega) (by omega), ← h 33 (by omega) (by omega), ← h 34 (by omega) (by omega),
    ← h 35 (by omega) (by omega)]
  rfl

/-- Settles O51: each step moves the window of X on by one word, so after 32 steps the working words hold `X_32` to
`X_35`, which the output permutation reverses. -/
theorem blockTransformIndexedForm : Obligations.BlockTransformIndexedForm := by
  intro rk block dir kw X hkw hblock hX
  have hkeys : KeyWordsAre dir rk kw := by
    intro r j
    cases dir with
    | encrypt => exact (keyWord_encrypt_eq_rkWord rk r j).trans (hkw ⟨4 * r.val + j.val, by omega⟩).symm
    | decrypt => exact (keyWord_decrypt_eq_rkWord rk r j).trans (hkw ⟨4 * r.val + j.val, by omega⟩).symm
  exact quadReverse_of_holdsWindow (blockSteps_holdsWindow hkeys hX (holdsWindow_zero hblock))

/-! ### The two directions invert each other (42_block_transform.md R157) -/

/-- The direction that undoes this one. -/
def Dir.opposite (dir : Dir) : Dir :=
  match dir with
  | .encrypt => .decrypt
  | .decrypt => .encrypt

theorem keyWord_opposite (dir : Dir) (rk : RoundKeys) (r : Fin 8) (j : Fin 4) :
    keyWord dir.opposite rk (7 - r) (3 - j) = keyWord dir rk r j := by
  cases dir with
  | encrypt => simp [keyWord, Dir.opposite]
  | decrypt => rfl

/-- A step XORs word j with a value that does not depend on word j, so taking it twice changes nothing. -/
theorem blockStep_involutive (j : Fin 4) (kw : Word) (x : Quad) : blockStep j kw (blockStep j kw x) = x := by
  apply quad_ext
  intro i
  by_cases hi : i = j
  · have hothers : ∀ j : Fin 4, j + 1 ≠ j ∧ j + 2 ≠ j ∧ j + 3 ≠ j := by decide
    obtain ⟨h1, h2, h3⟩ := hothers j
    simp only [hi, blockStep, quadGet_set_same, quadGet_set_other x _ h1, quadGet_set_other x _ h2,
      quadGet_set_other x _ h3, BitVec.xor_assoc, BitVec.xor_self, BitVec.xor_zero]
  · simp only [blockStep, quadGet_set_other _ _ hi]

/-- On the reversed words a step on word j is the step on word 3 - j: the XOR of the other three keeps its value. -/
theorem blockStep_reverse (j : Fin 4) (kw : Word) (x : Quad) :
    blockStep j kw (quadReverse x) = quadReverse (blockStep (3 - j) kw x) := by
  have hothers : ∀ j : Fin 4, 3 - (j + 1) = 3 - j + 3 ∧ 3 - (j + 2) = 3 - j + 2 ∧ 3 - (j + 3) = 3 - j + 1 := by decide
  obtain ⟨h1, h2, h3⟩ := hothers j
  have hxor : quadGet x (3 - j + 3) ^^^ quadGet x (3 - j + 2) ^^^ quadGet x (3 - j + 1) =
      quadGet x (3 - j + 1) ^^^ quadGet x (3 - j + 2) ^^^ quadGet x (3 - j + 3) := by ac_rfl
  rw [blockStep, blockStep, quadSet_reverse, quadGet_reverse, quadGet_reverse, quadGet_reverse, quadGet_reverse, h1, h2,
    h3, hxor]

/-- A step on word i undoes, on the reversed words, a step on word 3 - i with the same key word. -/
theorem blockStep_reverse_blockStep (i j : Fin 4) (h : 3 - i = j) (kw : Word) (x : Quad) :
    blockStep i kw (quadReverse (blockStep j kw x)) = quadReverse x := by
  rw [blockStep_reverse, h, blockStep_involutive]

/-- Group 7 - r of the opposite direction, on the reversed words, takes the steps of group r back, the last first. -/
theorem blockGroup_opposite (dir : Dir) (rk : RoundKeys) (x : Quad) (r : Fin 8) :
    blockGroup dir.opposite rk (quadReverse (blockGroup dir rk x r)) (7 - r) = quadReverse x := by
  have k0 : keyWord dir.opposite rk (7 - r) 0 = keyWord dir rk r 3 := keyWord_opposite dir rk r 3
  have k1 : keyWord dir.opposite rk (7 - r) 1 = keyWord dir rk r 2 := keyWord_opposite dir rk r 2
  have k2 : keyWord dir.opposite rk (7 - r) 2 = keyWord dir rk r 1 := keyWord_opposite dir rk r 1
  have k3 : keyWord dir.opposite rk (7 - r) 3 = keyWord dir rk r 0 := keyWord_opposite dir rk r 0
  rw [blockGroup, k0, k1, k2, k3, blockGroup, blockStep_reverse_blockStep 0 3 rfl, blockStep_reverse_blockStep 1 2 rfl,
    blockStep_reverse_blockStep 2 1 rfl, blockStep_reverse_blockStep 3 0 rfl]

/-- The opposite direction on the reversed words, its groups counted from the other end, takes any list of groups back. -/
theorem blockGroups_opposite (dir : Dir) (rk : RoundKeys) (groups : List (Fin 8)) (x : Quad) :
    (groups.reverse.map (7 - ·)).foldl (blockGroup dir.opposite rk) (quadReverse (groups.foldl (blockGroup dir rk) x)) =
      quadReverse x := by
  induction groups generalizing x with
  | nil => rfl
  | cons r rest ih =>
    rw [List.reverse_cons, List.map_append, List.foldl_append, List.foldl_cons, ih]
    exact blockGroup_opposite dir rk x r

theorem transform_opposite (dir : Dir) (rk : RoundKeys) (block : Quad) :
    transform dir.opposite rk (transform dir rk block) = block := by
  have hsteps : blockSteps dir.opposite rk (quadReverse (blockSteps dir rk block)) = quadReverse block :=
    blockGroups_opposite dir rk [0, 1, 2, 3, 4, 5, 6, 7] block
  rw [transform, transform, hsteps, quadReverse_reverse]

/-! ### SM4.ENC and SM4.DEC as one command with a direction (42_block_transform.md R155, R156) -/

/-- The command of a direction. -/
def blockInstr (dir : Dir) (len : Nat) : Instr :=
  match dir with
  | .encrypt => .enc len
  | .decrypt => .dec len

/-- The command of a direction in flight. -/
def blockPending (dir : Dir) (block : Quad) : Pending :=
  match dir with
  | .encrypt => .enc block
  | .decrypt => .dec block

theorem exec_block_eq_issue (dir : Dir) (len : Nat) (s : State) :
    exec (blockInstr dir len) s = issue (blockChecks len s) (accept (blockPending dir s.data) s) s := by
  cases dir <;> rfl

theorem complete_block (dir : Dir) (block : Quad) (s : State) : complete (blockPending dir block) s =
    { s with pend := none, data := transform dir s.rk block, x := blockSteps dir s.rk block } := by
  cases dir <;> rfl

theorem exec_block_accepts (dir : Dir) {s : State} (hb : s.busy = false) (hkv : s.keyValid = true) :
    exec (blockInstr dir 16) s = .next (accept (blockPending dir s.data) s) := by
  have hcheck : blockChecks 16 s = none := by simp [blockChecks, lengthCheck, keyCheck, hkv]
  rw [exec_block_eq_issue, hcheck, issue_accepts hb]

theorem exec_block_wrong_len (dir : Dir) {s : State} (hb : s.busy = false) {len : Nat} (hlen : len ≠ 16) :
    exec (blockInstr dir len) s = .next { s with err := .blockLen } := by
  rw [exec_block_eq_issue, blockChecks_of_ne s hlen, issue_rejects .blockLen hb, raiseCmdError]

theorem exec_block_no_key (dir : Dir) {s : State} (hb : s.busy = false) (hkv : s.keyValid = false) :
    exec (blockInstr dir 16) s = .next { s with err := .noKey } := by
  have hcheck : blockChecks 16 s = some .noKey := by simp [blockChecks, lengthCheck, keyCheck, hkv]
  rw [exec_block_eq_issue, hcheck, issue_rejects .noKey hb, raiseCmdError]

theorem engineTurn_block (dir : Dir) {block : Quad} {u : State} (h : u.pend = some (blockPending dir block)) :
    engineTurn u = { u with pend := none, data := transform dir u.rk block, x := blockSteps dir u.rk block } :=
  (engineTurn_of_pend h).trans (complete_block dir block u)

theorem readOpen_data_of_block (dir : Dir) {block : Quad} {u : State} (h : u.pend = some (blockPending dir block))
    (n : Fin 4) : readOpen (.data n) u = true := by
  refine readOpen_eq_true.2 ⟨_, h, pendingWrites_eq_true.2 (.inl ⟨⟨block, ?_⟩, n, rfl⟩)⟩
  cases dir with
  | encrypt => exact .inl rfl
  | decrypt => exact .inr rfl

theorem busWrite_block_word (dir : Dir) {c : Word} (hc : c &&& 0xFFFF00FF#32 = (blockInstr dir 0).row.pattern)
    (s : State) : busWrite 0x00#8 4 c s = exec (blockInstr dir (fieldLen c).toNat) s := by
  cases dir with
  | encrypt =>
    obtain ⟨len, hd⟩ := (decode_enc_iff_match c).2 hc
    obtain ⟨-, rfl⟩ := (decode_eq_enc c len).1 hd
    exact busWrite_cmd_of_decode hd s
  | decrypt =>
    obtain ⟨len, hd⟩ := (decode_dec_iff_match c).2 hc
    obtain ⟨-, rfl⟩ := (decode_eq_dec c len).1 hd
    exact busWrite_cmd_of_decode hd s

/-- A reserved bit makes a word illegal whatever its OP and DIR (30_encoding.md R77). -/
theorem busWrite_reserved_bits {c : Word} {s : State} (hb : s.busy = false) (h : fieldRz0 c ≠ 0#3 ∨ fieldRz1 c ≠ 0#16) :
    busWrite 0x00#8 4 c s = .next { s with err := .illegalCmd } := by
  obtain ⟨e, he⟩ := (decode_illegal_iff_listed c).2 (.inl h.symm)
  exact busWrite_cmd_rejects hb (firstFailing_illegal he s)

/-- Settles O29: the block command with DIR = 0; the example by evaluation. -/
theorem encCommand : Obligations.EncCommand :=
  ⟨fun _ hb => ⟨fun hkv => ⟨exec_block_accepts .encrypt hb hkv, engineTurn_block .encrypt rfl⟩,
      fun _ hc => busWrite_block_word .encrypt hc _, fun _ _ h => busWrite_reserved_bits hb h,
      fun _ hlen => exec_block_wrong_len .encrypt hb hlen, exec_block_no_key .encrypt hb⟩,
    fun _ _ h => engineTurn_block .encrypt h, fun _ _ n h => readOpen_data_of_block .encrypt h n, by decide⟩

/-- Settles O30: the block command with DIR = 1; the example by evaluation. -/
theorem decCommand : Obligations.DecCommand :=
  ⟨fun _ hb => ⟨fun hkv => ⟨exec_block_accepts .decrypt hb hkv, engineTurn_block .decrypt rfl⟩,
      fun _ hc => busWrite_block_word .decrypt hc _, fun _ _ h => busWrite_reserved_bits hb h,
      fun _ hlen => exec_block_wrong_len .decrypt hb hlen, exec_block_no_key .decrypt hb⟩,
    fun _ _ h => engineTurn_block .decrypt h, fun _ _ n h => readOpen_data_of_block .decrypt h n, by decide⟩

/-- SM4.ENC or SM4.DEC and its completion, together (70_reset_and_hazards.md R232, R233). -/
theorem block_command_result (dir : Dir) {s : State} (hb : s.busy = false) (hkv : s.keyValid = true) :
    ∃ a, exec (blockInstr dir 16) s = .next a ∧ (engineTurn a).data = transform dir s.rk s.data ∧
      (engineTurn a).rk = s.rk ∧ (engineTurn a).busy = false ∧ (engineTurn a).keyValid = true := by
  refine ⟨_, exec_block_accepts dir hb hkv, ?_⟩
  rw [engineTurn_block dir (accept_pend _ s)]
  exact ⟨rfl, rfl, rfl, hkv⟩

/-- Settles O50: a step is its own inverse and the output permutation turns the step order round; on the machine the
completion of SM4.ENC leaves BUSY = 0, KEY_VALID and `RK`, so SM4.DEC is accepted and inverts it. -/
theorem decryptionInvertsEncryption : Obligations.DecryptionInvertsEncryption := by
  refine ⟨fun rk block => ⟨transform_opposite .encrypt rk block, transform_opposite .decrypt rk block⟩, fun s hb hkv => ?_⟩
  obtain ⟨a, ha, hdata, hrk, hbusy, hvalid⟩ := block_command_result .encrypt hb hkv
  obtain ⟨b, hexec, hback, hrk', hidle, -⟩ := block_command_result .decrypt hbusy hvalid
  have hinverse : (engineTurn b).data = s.data := by
    rw [hback, hrk, hdata]
    exact transform_opposite .encrypt s.rk s.data
  exact ⟨a, b, ha, hexec, hinverse, hidle, hrk'.trans hrk⟩

end Sys2Proof.Machine
end

section
/-! PROOFS. The statements of 60_exceptions.md: the order of the checks and their codes (R202, R205), what a rejection
changes (R201), and that an accepted command completes (R203). -/

namespace Sys2Proof.Machine

/-! ### The checks in order (60_exceptions.md R202, R205) -/

/-- A `CMD` write while BUSY = 0 leaves the first failing check's code, or NONE and BUSY = 1 where no check fails. -/
theorem busWrite_cmd_leaves_first_failing (c : Word) {s : State} (hb : s.busy = false) :
    ∃ u, busWrite 0x00#8 4 c s = .next u ∧
      (∀ code, firstFailing c s = some code → u.err = code ∧ u.busy = false) ∧
      (firstFailing c s = none → u.err = .noError ∧ u.busy = true) := by
  cases hf : firstFailing c s with
  | some code => exact ⟨_, busWrite_cmd_rejects hb hf, fun _ h => ⟨Option.some.inj h, hb⟩, nofun⟩
  | none =>
    obtain ⟨i, -, hissue⟩ := issueCommand_accepts hb hf
    exact ⟨_, (busWrite_idle (r := .cmd) c nofun hb).trans hissue, nofun,
      fun _ => ⟨acceptedState_err i s, acceptedState_busy i s⟩⟩

/-- A block command of the right length has only the check of KEY_VALID left. -/
theorem blockChecks_sixteen (s : State) : blockChecks 16 s = keyCheck s := rfl

theorem firstFailing_of_block {c : Word} {len : Nat} (h : decode c = .ok (.enc len) ∨ decode c = .ok (.dec len))
    (s : State) : firstFailing c s = blockChecks len s := by
  obtain hd | hd := h
  · exact firstFailing_ok hd s
  · exact firstFailing_ok hd s

theorem execCheck_of_operator {i : Instr} (h : i = .t ∨ i = .tp) (s : State) : execCheck i s = none := by
  obtain rfl | rfl := h
  · rfl
  · rfl

theorem firstFailing_of_operator {c : Word} (h : decode c = .ok .t ∨ decode c = .ok .tp) (s : State) :
    firstFailing c s = none := by
  obtain hd | hd := h
  · exact (firstFailing_ok hd s).trans (execCheck_of_operator (.inl rfl) s)
  · exact (firstFailing_ok hd s).trans (execCheck_of_operator (.inr rfl) s)

/-- Settles O34: what a `CMD` write leaves is said by the first failing check, which each kind of word determines. -/
theorem commandChecksInOrder : Obligations.CommandChecksInOrder := by
  refine ⟨⟨rfl, rfl, rfl, rfl, rfl, errCode_le⟩, reset_err, fun s c hb => ?_⟩
  obtain ⟨u, hwrite, hrejects, haccepts⟩ := busWrite_cmd_leaves_first_failing c hb
  refine ⟨u, hwrite, ?illegal, ?ks, ?block, ?operator⟩
  case illegal =>
    rintro ⟨e, he⟩
    exact hrejects _ (firstFailing_illegal he s)
  case ks =>
    intro len hd
    have hcheck : firstFailing c s = lengthCheck .keyLen len := firstFailing_ok hd s
    exact ⟨fun hlen => hrejects _ (hcheck.trans (lengthCheck_of_ne .keyLen hlen)),
      fun hlen => haccepts (hcheck.trans (lengthCheck_eq_none.2 hlen))⟩
  case block =>
    intro len hd
    have hcheck : firstFailing c s = blockChecks len s := firstFailing_of_block hd s
    refine ⟨fun hlen => hrejects _ (hcheck.trans (blockChecks_of_ne s hlen)), ?_, ?_⟩
    · rintro rfl hkv
      exact hrejects _ (by rw [hcheck, blockChecks_sixteen, keyCheck, hkv, if_neg Bool.false_ne_true])
    · rintro rfl hkv
      exact haccepts (by rw [hcheck, blockChecks_sixteen, keyCheck, if_pos hkv])
  case operator => exact fun hd => haccepts (firstFailing_of_operator hd s)

/-! ### Rejection (60_exceptions.md R201) -/

/-- Settles O33: a failing check raises its code, and raising a code writes ERR alone. -/
theorem rejectionChangesErrAlone : Obligations.RejectionChangesErrAlone := fun _ _ _ => busWrite_cmd_rejects

/-! ### Completion (60_exceptions.md R203; 70_reset_and_hazards.md R233) -/

/-- The engine's turn while a command is in flight is that command's completion, the turn used up. -/
theorem step_completes {s : State} {p : Pending} (h : Completes s p) : step s = .next (complete p (dropTurn s)) := by
  obtain ⟨hturn, hp⟩ := h
  have hcomplete : engineTurn (dropTurn s) = complete p (dropTurn s) := engineTurn_of_pend hp
  rw [step, hturn, takeTurn, hcomplete]

/-- Settles O36: a busy state has a command in flight, which the engine's turn completes; SM4.T and SM4.TP have no check
to fail. -/
theorem acceptedCommandsCannotFail : Obligations.AcceptedCommandsCannotFail := by
  refine ⟨fun s hb hturn => ?_, fun s hb i hi => ?_⟩
  · obtain ⟨p, hp⟩ := (busy_eq_true s).1 hb
    refine ⟨_, step_completes ⟨hturn, hp⟩, complete_busy p _, complete_err p _, fun q hq => ?_⟩
    rw [Option.some.inj (hp.symm.trans hq)]
  · exact ⟨_, exec_accepts hb (execCheck_of_operator hi s), acceptedState_err i s, acceptedState_busy i s⟩

end Sys2Proof.Machine
end

section
/-! PROOFS. The statements of 70_reset_and_hazards.md: reset (R230, R231), acceptance and completion (R232, R233), one
command at a time (R235), the end of a command and of a run (R234, R242), and the wait rule (R236). -/

namespace Sys2Proof.Machine

/-! ### Reset (70_reset_and_hazards.md R230, R231) -/

theorem step_resets {s : State} (h : Resets s) : step s = .next (resetTurn (dropTurn s)) := by
  rw [step, h, takeTurn]

theorem statusWord_resetTurn (s : State) : statusWord (resetTurn s) = 0#32 :=
  (by decide : statusWord State.reset = 0#32)

/-- With KEY_VALID = 0 every round-key word reads 0, whatever the file holds (10_state.md R32). -/
theorem regValue_rk_of_no_key {s : State} (h : s.keyValid = false) (n : Fin 32) : regValue (.rk n) s = 0#32 := by
  rw [regValue, h, if_neg Bool.false_ne_true]

/-- Settles O54: a reset step leaves the reset state with the host side kept. -/
theorem resetFromAnyState : Obligations.ResetFromAnyState := fun _ h =>
  ⟨_, step_resets h, rfl, rfl, rfl, rfl, rfl, rfl, rfl, rfl, rfl, statusWord_resetTurn _,
    regValue_rk_of_no_key rfl, rfl⟩

/-- Settles O55: the reset state is idle without a schedule, so the block commands fail KEY_VALID's check alone and SM4.T
fails none. -/
theorem resetIsIdleWithNoSchedule : Obligations.ResetIsIdleWithNoSchedule :=
  ⟨reset_busy, reset_keyValid, exec_block_no_key .encrypt reset_busy reset_keyValid,
    exec_block_no_key .decrypt reset_busy reset_keyValid, exec_accepts reset_busy rfl⟩

/-! ### Acceptance, completion, and one command at a time (70_reset_and_hazards.md R232, R233, R235) -/

/-- The word of a command is its encoding, so a `CMD` write of it runs the command. -/
theorem busWrite_cmd_encode {i : Instr} (hw : WellFormed i) (s : State) : busWrite 0x00#8 4 (encode i) s = exec i s :=
  busWrite_cmd_of_decode (decode_encode hw) s

/-- Settles O31: each word is the encoding of its command, which fails no check in such a state. -/
theorem acceptanceCapturesOperands : Obligations.AcceptanceCapturesOperands := fun s hb =>
  ⟨(busWrite_cmd_encode (i := .ks 16) rfl s).trans (exec_ks_accepts hb),
    fun hkv => ⟨(busWrite_cmd_encode (i := .enc 16) rfl s).trans (exec_block_accepts .encrypt hb hkv),
      (busWrite_cmd_encode (i := .dec 16) rfl s).trans (exec_block_accepts .decrypt hb hkv)⟩,
    (busWrite_cmd_encode (i := .t) rfl s).trans (exec_accepts hb rfl),
    (busWrite_cmd_encode (i := .tp) rfl s).trans (exec_accepts hb rfl)⟩

/-- The engine's turn with nothing in flight uses up the turn alone (log 2). -/
theorem step_engine_idle {s : State} (hturn : nextTurn s = .engine) (hp : s.pend = none) :
    step s = .next (dropTurn s) := by
  have hidle : engineTurn (dropTurn s) = dropTurn s := by rw [engineTurn, dropTurn_pend, hp]
  rw [step, hturn, takeTurn, hidle]

/-- Settles O32: the engine's turn is the completion of the command in flight, and `complete` writes its results. -/
theorem completionWritesResults : Obligations.CompletionWritesResults := fun s hturn =>
  ⟨step_engine_idle hturn, fun _ hp => ⟨_, step_completes ⟨hturn, hp⟩, rfl⟩,
    fun block hp => ⟨_, step_completes ⟨hturn, hp⟩, complete_block .encrypt block (dropTurn s)⟩,
    fun block hp => ⟨_, step_completes ⟨hturn, hp⟩, complete_block .decrypt block (dropTurn s)⟩,
    fun _ hp => step_completes ⟨hturn, hp⟩, fun _ hp => step_completes ⟨hturn, hp⟩⟩

/-- Settles O35: `CMD` is not `STATUS`, so a busy write of it is dropped undecoded; a command's issue asks BUSY first. -/
theorem busyCommandsAreDropped : Obligations.BusyCommandsAreDropped := by
  refine fun s hb => ⟨fun c => ?_, fun i => ?_⟩
  · exact (busWrite_off .cmd c s).trans (writeReg_busy nofun hb)
  · rw [exec_eq_issue, issue_busy hb, dropWrite]

/-! ### With no turns listed (70_reset_and_hazards.md R234, R242) -/

theorem nextTurn_of_no_turns {s : State} (h : s.turns = []) : nextTurn s = if s.busy then .engine else .host := by
  rw [nextTurn, h]

/-- With no turns listed, taking a turn leaves the schedule as it is. -/
theorem dropTurn_of_no_turns {s : State} (h : s.turns = []) : dropTurn s = s := by
  have htail : s.turns.tail = s.turns := by rw [h, List.tail_nil]
  rw [dropTurn, htail]

/-- A busy state with no turns listed completes its command next. -/
theorem completes_of_no_turns {s : State} (hb : s.busy = true) (h : s.turns = []) : ∃ p, Completes s p := by
  obtain ⟨p, hp⟩ := (busy_eq_true s).1 hb
  exact ⟨p, by rw [nextTurn_of_no_turns h, hb, if_pos rfl], hp⟩

/-- On the turn of a host whose program is over, a step uses up the turn alone. -/
theorem step_of_no_hostInstr {s : State} (hturn : nextTurn s = .host) (hfetch : hostFetch s = none) :
    step s = .next (dropTurn s) := by
  have hfetch' : hostFetch (dropTurn s) = none := hfetch
  rw [step, hturn, takeTurn, hostTurn, hfetch']

/-! ### A busy machine comes to an end (70_reset_and_hazards.md R234) -/

/-- Within m steps BUSY = 0, or the host has drawn a BusError. -/
def BusyEndsWithin (m : Nat) (s : State) : Prop :=
  ∃ n ≤ m, (∃ u, core.run n s = .next u ∧ State.busy u = false) ∨ ∃ f, core.run n s = .fault f

theorem busyEndsWithin_of_idle {s : State} (m : Nat) (h : s.busy = false) : BusyEndsWithin m s :=
  ⟨0, Nat.zero_le m, .inl ⟨s, rfl, h⟩⟩

/-- One step more than what is enough from every state the step can reach; a step that reaches none has stopped. -/
theorem busyEndsWithin_succ {m : Nat} {s : State} (h : ∀ u, step s = .next u → BusyEndsWithin m u) :
    BusyEndsWithin (m + 1) s := by
  cases hstep : step s with
  | next u =>
    obtain ⟨n, hn, hend⟩ := h u hstep
    exact ⟨n + 1, Nat.succ_le_succ hn, by rwa [run_of_next n hstep]⟩
  | fault f => exact ⟨1, Nat.succ_le_succ (Nat.zero_le m), .inr ⟨f, run_of_fault 0 hstep⟩⟩
  | refused r => exact absurd hstep (step_never_refuses s r)

/-- Each step uses up a listed turn, and after the last of them the completion is next. -/
theorem busyEndsWithin_of_turns {turns : List Turn} {s : State} (h : s.turns = turns) :
    BusyEndsWithin (turns.length + 1) s := by
  induction turns generalizing s with
  | nil =>
    cases hb : s.busy with
    | false => exact busyEndsWithin_of_idle _ hb
    | true =>
      obtain ⟨p, hp⟩ := completes_of_no_turns hb h
      refine busyEndsWithin_succ fun u hu => busyEndsWithin_of_idle _ ?_
      cases (step_completes hp).symm.trans hu
      exact complete_busy p _
  | cons turn rest ih =>
    refine busyEndsWithin_succ fun u hu => ih ?_
    rw [step_turns hu, h, List.tail_cons]

/-- Settles O49: by induction on the listed turns, each of which a step uses up; with none left the completion is next. -/
theorem busyComesToAnEnd : Obligations.BusyComesToAnEnd := fun _ _ => busyEndsWithin_of_turns rfl

/-- Settles O58: with no turns listed a final state's turn is that of a host with no instruction left, and a busy state's
is the engine's. -/
theorem finalStatesRestAndBusyOnesComplete : Obligations.FinalStatesRestAndBusyOnesComplete := by
  refine ⟨fun s ⟨hfetch, hb⟩ hturns => ?_, fun s hb => ⟨fun ⟨_, hidle⟩ => ?_, fun hturns => ?_⟩⟩
  · have hturn : nextTurn s = .host := by rw [nextTurn_of_no_turns hturns, hb, if_neg Bool.false_ne_true]
    rw [step_of_no_hostInstr hturn hfetch, dropTurn_of_no_turns hturns]
  · cases hb.symm.trans hidle
  · obtain ⟨p, hp⟩ := completes_of_no_turns hb hturns
    refine ⟨engineTurn s, ?_, rfl, ?_⟩
    · rw [step_completes hp, dropTurn_of_no_turns hturns, engineTurn_of_pend hp.2]
    · rw [engineTurn_of_pend hp.2, complete_busy]

/-! ### The wait rule (70_reset_and_hazards.md R236) -/

theorem writeEffect_draws {s u : State} {r : Reg} {v : Word} (e : WriteEffect s r v u) : u.draws = s.draws := by
  cases e with
  | accepted i => exact acceptedState_draws i s
  | _ => rfl

theorem engineTurn_draws (s : State) : (engineTurn s).draws = s.draws := by
  cases hp : s.pend with
  | none => rw [engineTurn, hp]
  | some p => rw [engineTurn_of_pend hp, complete_draws]

theorem step_draws_of_hostWrites {s u : State} {r : Reg} {v : Word} (hw : HostWrites s r v) (h : step s = .next u) :
    u.draws = s.draws :=
  (writeEffect_draws (writeReg_cases ((step_eq_writeReg hw).symm.trans h)) : u.draws = (atHostWrite s).draws)

/-- A host read of a register that is not open takes the register's value and makes no draw. -/
theorem step_readsClosed {s : State} {r : Reg} {t : Nat} (h : HostReads s r t) (hclosed : readOpen r s = false) :
    step s = .next (setVar t (regValue r s) (hostGoto (s.host.pc + 1) (dropTurn s))) := by
  obtain ⟨hturn, off, width, hfetch, htarget⟩ := h
  obtain ⟨rfl, -⟩ := busTarget_width htarget
  obtain rfl := off_of_busTarget off r htarget
  rw [step_eq_hostInstr hturn hfetch]
  exact busRead_closed t hclosed

/-- Only an open read draws (10_state.md R31; log 4). -/
theorem step_draws_cases {s u : State} (h : step s = .next u) :
    u.draws = s.draws ∨ ∃ r t, HostReads s r t ∧ readOpen r s = true := by
  cases hturn : nextTurn s with
  | engine =>
    rw [step, hturn] at h
    cases h
    exact .inl (engineTurn_draws _)
  | reset =>
    rw [step, hturn] at h
    cases h
    exact .inl rfl
  | host =>
    cases hfetch : hostFetch s with
    | none =>
      cases (step_of_no_hostInstr hturn hfetch).symm.trans h
      exact .inl rfl
    | some hi =>
      have hrun : hostInstr hi (dropTurn s) = .next u := (step_eq_hostInstr hturn hfetch).symm.trans h
      cases hi with
      | write off width v =>
        cases htarget : busTarget off width with
        | none => cases (step_of_no_target hturn (.inl ⟨v, hfetch⟩) htarget).symm.trans h
        | some r => exact .inl (step_draws_of_hostWrites ⟨hturn, off, width, v, hfetch, htarget, rfl⟩ h)
      | read off width t =>
        cases htarget : busTarget off width with
        | none => cases (step_of_no_target hturn (.inr ⟨t, hfetch⟩) htarget).symm.trans h
        | some r =>
          have hread : HostReads s r t := ⟨hturn, off, width, hfetch, htarget⟩
          cases hopen : readOpen r s with
          | true => exact .inr ⟨r, t, hread, hopen⟩
          | false =>
            cases (step_readsClosed hread hopen).symm.trans h
            exact .inl rfl
      | bnz t mask label =>
        cases hrun
        exact .inl (by split <;> rfl)
      | set t v =>
        cases hrun
        exact .inl rfl
      | dec t =>
        cases hrun
        exact .inl rfl

theorem status_of_waitRule {s : State} {r : Reg} {v : Word} (hwait : WaitRule s) (hb : s.busy = true)
    (h : HostWrites s r v) : r = .status := by
  obtain ⟨-, off, width, val, hfetch, htarget, -⟩ := h
  exact (hwait hb).1 off width val r hfetch htarget

theorem readOpen_of_idle (r : Reg) {s : State} (hb : s.busy = false) : readOpen r s = false := by
  rw [readOpen, (busy_eq_false s).1 hb]

theorem closed_of_waitRule {s : State} {r : Reg} {t : Nat} (hwait : WaitRule s) (h : HostReads s r t) :
    readOpen r s = false := by
  obtain ⟨-, off, width, hfetch, htarget⟩ := h
  cases hb : s.busy with
  | false => exact readOpen_of_idle r hb
  | true => exact (hwait hb).2 off width t r hfetch htarget

/-- Settles O57: OVERRUN is raised only by a busy write to a register other than `STATUS`, and a draw is made only by an
open read; the wait rule excludes both. -/
theorem waitingHostMeetsNoHazard : Obligations.WaitingHostMeetsNoHazard := by
  refine fun s u hwait h => ⟨fun hu => ?overrun, ?draws, fun r t hread => ?value⟩
  case overrun =>
    obtain heq | ⟨r, v, hw, hr, hb⟩ | ⟨v, hw, hv⟩ | hres := step_overrun_cases h
    · exact heq ▸ hu
    · exact absurd (status_of_waitRule hwait hb hw) hr
    · cases (step_writesStatus hw).symm.trans h
      rw [writeStatus_overrun, if_pos hv] at hu
      cases hu
    · cases (step_resets hres).symm.trans h
      cases hu
  case draws =>
    obtain heq | ⟨r, t, hread, hopen⟩ := step_draws_cases h
    · exact heq
    · cases hopen.symm.trans (closed_of_waitRule hwait hread)
  case value =>
    cases (step_readsClosed hread (closed_of_waitRule hwait hread)).symm.trans h
    exact hostVar_setVar_same t _ _

end Sys2Proof.Machine
end
